-- ==== Sys2Proof/Word.lean ====
section
/-! DEFINITION. The data the block handles: bytes, 16-bit fields, 3-bit register fields, and text.
Spec: 00_scope.md R7 (a byte is 8 bits), R9 (a string is a finite sequence of characters). -/

namespace Sys2Proof

/-- One byte of the input stream; bit 7 is the most significant (R7). -/
abbrev Byte := BitVec 8

/-- A two-byte field of an instruction, once assembled (R32). -/
abbrev Word16 := BitVec 16

/-- A register or base field, `reg` or `r_m` (R54). -/
abbrev Field3 := BitVec 3

/-- A string of the output: a finite sequence of characters (R9; log 11). -/
abbrev Text := List Char

end Sys2Proof
end

