-- ==== Sys2Proof/Config.lean ====
section
/-! DEFINITION. What an implementation fixes and the spec leaves OPEN: `IMM_REG_CHECK`.
Spec: 00_scope.md R6, 92_eei_decisions.md D6, 93_implementation_defined.md U1. -/

namespace Sys2Proof

/-- `IMM_REG_CHECK` of this implementation: whether the `reg` field of the mode byte of `MOV imm → reg/mem`
is validated to be `000` ("implementations may elect to validate or ignore").
It has no body, so nothing proved here depends on which of the two values it has (log 3). -/
opaque Config.immRegCheck : Bool

end Sys2Proof
end

