-- ==== Sys2Proof/Syntax.lean ====
section
/-! DEFINITION. The five instructions of spec/opcode_table.json and their operands, as syntax.
Spec: 30_encoding.md R52 to R60. -/

namespace Sys2Proof

/-- The width bit `w` (R53): "when clear, operands are 8 bits ...; when set, operands are 16 bits". -/
inductive Width where
  | byte
  | word
deriving DecidableEq, Repr

/-- The direction bit `d` (R53): "when set, the register encoded in the `REG` field is the destination; otherwise it
is the source". -/
inductive Dir where
  | regIsSource
  | regIsDest
deriving DecidableEq, Repr

/-- The operand that `mod` and `r_m` select, with its displacement or address bytes (R54 to R56; log 17). -/
inductive RegMem where
  /-- `mod = 11`: the register `r_m`. -/
  | reg (rm : Field3)
  /-- `mod = 00`, `r_m = 110`: a direct address. -/
  | direct (addr : Word16)
  /-- `mod = 00`, any other `r_m`: a base expression with no displacement. -/
  | base (rm : Field3)
  /-- `mod = 01`: a base expression and a one-byte displacement. -/
  | disp8 (rm : Field3) (v : Byte)
  /-- `mod = 10`: a base expression and a two-byte displacement. -/
  | disp16 (rm : Field3) (u : Word16)
deriving DecidableEq, Repr

/-- An immediate of `1 + w` bytes, as read (R57). -/
inductive Imm where
  | byte (v : Byte)
  | word (u : Word16)
deriving DecidableEq, Repr

/-- The five instructions, one constructor for each row of spec/opcode_table.json (R52). -/
inductive Instr where
  /-- `MOV reg/mem ↔ reg` (R100). -/
  | movRegMemReg (d : Dir) (w : Width) (reg : Field3) (rm : RegMem)
  /-- `MOV imm → reg/mem` (R110). `reg` is the field that "must be `000`" (R63), kept as it was read. -/
  | movImmRegMem (reg : Field3) (rm : RegMem) (imm : Imm)
  /-- `MOV imm → reg (short)` (R120). -/
  | movImmReg (reg : Field3) (imm : Imm)
  /-- `MOV mem → acc` (R150). -/
  | movMemAcc (w : Width) (addr : Word16)
  /-- `MOV acc → mem` (R151). -/
  | movAccMem (w : Width) (addr : Word16)
deriving DecidableEq, Repr

/-- What the dispatcher answers for a recognised first byte (R81). -/
inductive Variant where
  | rmReg
  | immRm
  | immReg
  | memAcc
  | accMem
deriving DecidableEq, Repr

/-- An opcode descriptor (R52): "a first byte `b` matches iff `b >> shift == pattern`". -/
structure Descriptor where
  variant : Variant
  pattern : Nat
  shift : Nat
deriving DecidableEq, Repr

/-- Why a run of bytes is no instruction: the three error kinds (60_exceptions.md R160). -/
inductive DecodeError where
  /-- The first byte matches no descriptor (R161). -/
  | unknownOpcode
  /-- A second or later byte is needed and the stream has ended (R162). -/
  | truncatedInstruction
  /-- The `reg` field of variant 2 is not `000` and the implementation validates it (R163). -/
  | malformedField
deriving DecidableEq, Repr

end Sys2Proof
end

