-- ==== Sys2Proof/WellFormed.lean ====
section
/-! DEFINITION. Which terms of the syntax stand for bytes the block accepts.
Spec: 30_encoding.md R54 to R56 (`mod = 00`, `r_m = 110` is the direct address), R63 (the reserved field). -/

namespace Sys2Proof

/-- A base with no displacement is never `r_m = 110`: those bits are the direct address (44_operand_rendering.md R134). -/
def RegMem.wf : RegMem → Bool
  | .base rm => rm != 0b110#3
  | .reg _ => true
  | .direct _ => true
  | .disp8 _ _ => true
  | .disp16 _ _ => true

/-- Well-formed for an implementation whose `IMM_REG_CHECK` is `check`.
With `check` true the `reg` field of variant 2 must be `000`, with it false all eight values are accepted (R63, R115). -/
def Instr.wf (check : Bool) : Instr → Bool
  | .movRegMemReg _ _ _ rm => rm.wf
  | .movImmRegMem reg rm _ => rm.wf && (reg == 0b000#3 || !check)
  | .movImmReg _ _ => true
  | .movMemAcc _ _ => true
  | .movAccMem _ _ => true

end Sys2Proof
end

