-- ==== Sys2Proof/Decode.lean ====
section
/-! DEFINITION. From bytes to an instruction, total and rejecting by name, and back.
Spec: 30_encoding.md R50 to R63, 40_dispatch_and_step.md R81, 20_memory.md R31 to R33, 60_exceptions.md R166. -/

namespace Sys2Proof

/-! ## Fields of a byte (R7, R53, R54) -/

/-- The width that a `w` bit names (R53). -/
def Width.ofBit : Bool → Width
  | false => .byte
  | true => .word

/-- The direction that a `d` bit names (R53). -/
def Dir.ofBit : Bool → Dir
  | false => .regIsSource
  | true => .regIsDest

/-- The `w` bit. -/
def Width.bit : Width → BitVec 1
  | .byte => 0#1
  | .word => 1#1

/-- The `d` bit. -/
def Dir.bit : Dir → BitVec 1
  | .regIsSource => 0#1
  | .regIsDest => 1#1

/-- `m[7:6]` (R54). -/
def modField (m : Byte) : BitVec 2 := m.extractLsb' 6 2

/-- `m[5:3]` (R54). -/
def regField (m : Byte) : Field3 := m.extractLsb' 3 3

/-- `m[2:0]` of a mode byte, and of the first byte of the short form (R53, R54). -/
def rmField (m : Byte) : Field3 := m.extractLsb' 0 3

/-! ## The dispatcher (R52, R81) -/

/-- `b >> shift == pattern` (R52). -/
def Descriptor.accepts (d : Descriptor) (b : Byte) : Bool := (b >>> d.shift).toNat == d.pattern

/-- The five descriptors, longest prefix first (R52, R81; 90_conflicts.md C2). -/
def descriptors : List Descriptor :=
  [⟨.immRm, 0b1100011, 1⟩, ⟨.memAcc, 0b1010000, 1⟩, ⟨.accMem, 0b1010001, 1⟩,
   ⟨.rmReg, 0b100010, 2⟩, ⟨.immReg, 0b1011, 4⟩]

/-- The variant of the first descriptor of a list that accepts a byte. -/
def firstMatch (ds : List Descriptor) (b : Byte) : Option Variant :=
  (ds.find? fun d => d.accepts b).map Descriptor.variant

/-- `Variant(b)`, with `none` for the spec's `NONE` (R81). -/
def variantOf (b : Byte) : Option Variant := firstMatch descriptors b

/-! ## Reading bytes in order (R31, R32, R59) -/

/-- `Fetch8()` on the bytes from the cursor to the end of the stream, given that the first byte of the instruction has
been read: at the end it raises `TruncatedInstruction` (R31). -/
def fetch8 : List Byte → Except DecodeError (Byte × List Byte)
  | [] => .error .truncatedInstruction
  | b :: bs => .ok (b, bs)

/-- `Fetch16()`: low byte first, `hi * 256 + lo` (R32, R33). -/
def fetch16 (bs : List Byte) : Except DecodeError (Word16 × List Byte) := do
  let (lo, bs) ← fetch8 bs
  let (hi, bs) ← fetch8 bs
  return (hi ++ lo, bs)

/-- The operand of a mode byte, with its displacement or address bytes (R55, R56, R132, R134). -/
def decodeRegMem (mod : BitVec 2) (rm : Field3) (bs : List Byte) : Except DecodeError (RegMem × List Byte) :=
  if mod = 0b11#2 then .ok (.reg rm, bs)
  else if mod = 0b00#2 then
    if rm = 0b110#3 then do
      let (a, bs) ← fetch16 bs
      return (.direct a, bs)
    else .ok (.base rm, bs)
  else if mod = 0b01#2 then do
    let (v, bs) ← fetch8 bs
    return (.disp8 rm v, bs)
  else do
    let (u, bs) ← fetch16 bs
    return (.disp16 rm u, bs)

/-- `Imm(w)`: one byte when `w = 0`, two when `w = 1` (R57). -/
def decodeImm : Width → List Byte → Except DecodeError (Imm × List Byte)
  | .byte, bs => do
    let (v, bs) ← fetch8 bs
    return (.byte v, bs)
  | .word, bs => do
    let (u, bs) ← fetch16 bs
    return (.word u, bs)

/-- The must-be-`000` check of R63 and R110: `IMM_REG_CHECK and reg != 000`. -/
def regFieldRejected (check : Bool) (reg : Field3) : Bool := reg != 0b000#3 && check

/-! ## The five variants after their first byte `b` -/

/-- Fields of `MOV reg/mem ↔ reg` (R100). -/
def decodeMovRegMemReg (b : Byte) (bs : List Byte) : Except DecodeError (Instr × List Byte) := do
  let (m, bs) ← fetch8 bs
  let (rm, bs) ← decodeRegMem (modField m) (rmField m) bs
  return (.movRegMemReg (Dir.ofBit (b.getLsbD 1)) (Width.ofBit (b.getLsbD 0)) (regField m) rm, bs)

/-- Fields of `MOV imm → reg/mem`; the check comes right after the mode byte, "before any further fetch" (R110, R166). -/
def decodeMovImmRegMem (check : Bool) (b : Byte) (bs : List Byte) : Except DecodeError (Instr × List Byte) := do
  let (m, bs) ← fetch8 bs
  if regFieldRejected check (regField m) then .error .malformedField
  else do
    let (rm, bs) ← decodeRegMem (modField m) (rmField m) bs
    let (imm, bs) ← decodeImm (Width.ofBit (b.getLsbD 0)) bs
    return (.movImmRegMem (regField m) rm imm, bs)

/-- Fields of `MOV imm → reg (short)`; `w` is bit 3 here (R53, R120, R122). -/
def decodeMovImmReg (b : Byte) (bs : List Byte) : Except DecodeError (Instr × List Byte) := do
  let (imm, bs) ← decodeImm (Width.ofBit (b.getLsbD 3)) bs
  return (.movImmReg (rmField b) imm, bs)

/-- Fields of `MOV mem → acc`; two address bytes whatever `w` is (R58, R150). -/
def decodeMovMemAcc (b : Byte) (bs : List Byte) : Except DecodeError (Instr × List Byte) := do
  let (a, bs) ← fetch16 bs
  return (.movMemAcc (Width.ofBit (b.getLsbD 0)) a, bs)

/-- Fields of `MOV acc → mem` (R58, R151). -/
def decodeMovAccMem (b : Byte) (bs : List Byte) : Except DecodeError (Instr × List Byte) := do
  let (a, bs) ← fetch16 bs
  return (.movAccMem (Width.ofBit (b.getLsbD 0)) a, bs)

/-- The instruction at the head of a run of bytes and the bytes after it, or the error kind, for an implementation whose
`IMM_REG_CHECK` is `check`.
The step never asks it about no bytes at all (R31); it then answers that a byte is missing. -/
def decode (check : Bool) : List Byte → Except DecodeError (Instr × List Byte)
  | [] => .error .truncatedInstruction
  | b :: bs =>
    match variantOf b with
    | none => .error .unknownOpcode
    | some .rmReg => decodeMovRegMemReg b bs
    | some .immRm => decodeMovImmRegMem check b bs
    | some .immReg => decodeMovImmReg b bs
    | some .memAcc => decodeMovMemAcc b bs
    | some .accMem => decodeMovAccMem b bs

/-! ## Lengths (R55, R57, R60) -/

/-- `DispLen(mod, r_m)` (R55). -/
def RegMem.dispLen : RegMem → Nat
  | .reg _ => 0
  | .direct _ => 2
  | .base _ => 0
  | .disp8 _ _ => 1
  | .disp16 _ _ => 2

/-- `w` of an immediate (R57). -/
def Imm.width : Imm → Width
  | .byte _ => .byte
  | .word _ => .word

/-- `ImmLen(w) = 1 + w` (R57). -/
def Imm.byteLen : Imm → Nat
  | .byte _ => 1
  | .word _ => 2

/-- The encoded length of an instruction (R60). -/
def Instr.length : Instr → Nat
  | .movRegMemReg _ _ _ rm => 2 + rm.dispLen
  | .movImmRegMem _ rm imm => 2 + rm.dispLen + imm.byteLen
  | .movImmReg _ imm => 1 + imm.byteLen
  | .movMemAcc _ _ => 3
  | .movAccMem _ _ => 3

/-! ## The encoder -/

/-- The two bytes of a field, low byte first (R33). -/
def wordBytes (u : Word16) : List Byte := [u.extractLsb' 0 8, u.extractLsb' 8 8]

/-- The `mod` bits of an operand (R54). -/
def RegMem.modBits : RegMem → BitVec 2
  | .reg _ => 0b11#2
  | .direct _ => 0b00#2
  | .base _ => 0b00#2
  | .disp8 _ _ => 0b01#2
  | .disp16 _ _ => 0b10#2

/-- The `r_m` bits of an operand (R54). -/
def RegMem.rmBits : RegMem → Field3
  | .reg rm => rm
  | .direct _ => 0b110#3
  | .base rm => rm
  | .disp8 rm _ => rm
  | .disp16 rm _ => rm

/-- The displacement or address bytes of an operand (R55, R56). -/
def RegMem.dispBytes : RegMem → List Byte
  | .reg _ => []
  | .direct a => wordBytes a
  | .base _ => []
  | .disp8 _ v => [v]
  | .disp16 _ u => wordBytes u

/-- The mode byte `mod reg r_m` (R54). -/
def modeByte (reg : Field3) (rm : RegMem) : Byte := rm.modBits ++ reg ++ rm.rmBits

/-- The bytes of an immediate (R57). -/
def Imm.bytes : Imm → List Byte
  | .byte v => [v]
  | .word u => wordBytes u

/-- The bytes of an instruction, from the layouts of R53 and the order of R59. -/
def encode : Instr → List Byte
  | .movRegMemReg d w reg rm => (0b100010#6 ++ d.bit ++ w.bit : BitVec 8) :: modeByte reg rm :: rm.dispBytes
  | .movImmRegMem reg rm imm =>
    (0b1100011#7 ++ imm.width.bit : BitVec 8) :: modeByte reg rm :: (rm.dispBytes ++ imm.bytes)
  | .movImmReg reg imm => (0b1011#4 ++ imm.width.bit ++ reg : BitVec 8) :: imm.bytes
  | .movMemAcc w a => (0b1010000#7 ++ w.bit : BitVec 8) :: wordBytes a
  | .movAccMem w a => (0b1010001#7 ++ w.bit : BitVec 8) :: wordBytes a

/-! ## Words as spec/opcode_table.json numbers them -/

/-- The longest instruction, in bytes (R60). -/
def maxInstrBytes : Nat := 6

/-- The `n` lowest bytes of a number, least significant first. -/
def leBytes : Nat → Nat → List Byte
  | 0, _ => []
  | n + 1, w => BitVec.ofNat 8 w :: leBytes n (w / 256)

/-- The bytes of an instruction whose lowest `nbits` bits are those of `w` and whose other bits are 0. -/
def tableBytes (nbits w : Nat) : List Byte := leBytes maxInstrBytes (w % 2 ^ nbits)

/-- The instruction the decoder reads from the bits of `w`, or none where it refuses them. -/
def decodeTableWord (nbits w : Nat) : Option Instr :=
  match decode Config.immRegCheck (tableBytes nbits w) with
  | .ok (i, _) => some i
  | .error _ => none

end Sys2Proof
end

