-- ==== Sys2Proof/Machine/State.lean ====
section
/-! DEFINITION. The whole state of the block, the launch parameters of a call beside it, and reset.
Spec: 10_state.md R10 to R21, 00_scope.md R6, 70_reset_and_hazards.md R190. -/

namespace Sys2Proof.Machine

/-- `STATUS` (R14). -/
inductive Status where
  /-- The call is in progress. -/
  | run
  /-- The end of the stream was found between instructions. -/
  | done
  /-- A fatal decode failure ended the call. -/
  | fault
deriving DecidableEq, Repr

/-- `CAUSE` (R10, R160). -/
inductive Cause where
  | none
  | unknownOpcode
  | truncatedInstruction
  | malformedField
deriving DecidableEq, Repr

/-- `IMEM` as cells, addresses strictly rising and no byte equal to what an unlisted address reads as (log 5). -/
abbrev Memory := List Host.Cell

/-- The state of a call: the five elements of R10 (`cur`, `out`, `status`, `cause`, `fpc`), and the parameters of
the call (R6), which no step writes (log 4). -/
structure State where
  /-- `IMEM`, the program image (R30). -/
  imem : Memory
  /-- `LEN`, the number of bytes in `IMEM`. -/
  len : Nat
  /-- `OUT0`, the content of the sink before the call. -/
  out0 : Text
  /-- `IMM_REG_CHECK`, fixed per implementation (R190). -/
  immRegCheck : Bool
  /-- `CUR`, the cursor (R11). -/
  cur : Nat
  /-- `OUT`, every character of the sink so far, `OUT0` first (R13). -/
  out : Text
  /-- `STATUS` (R14). -/
  status : Status
  /-- `CAUSE` (R15). -/
  cause : Cause
  /-- `FPC`, the index of the faulting instruction's first byte, meaningful in `FAULT` only (R15). -/
  fpc : Nat
deriving DecidableEq, Repr

/-- Why no step is enabled. -/
inductive Fault where
  /-- Raised by `step` when `STATUS` is `DONE`: the call has ended normally and nothing but reset leaves that state
  (R14). Safe: the block does nothing there (log 6). -/
  | callDone
  /-- Raised by `step` when `STATUS` is `FAULT`: a decode failure ended the call with this `CAUSE` at this `FPC` (R168,
  R178). Safe: the block does nothing there (log 6). -/
  | callFaulted (cause : Cause) (fpc : Nat)
  /-- Raised by `step` when `STATUS` is `RUN` and `CUR > LEN`: there is no `IMEM` byte and no end of stream there, and no
  run comes there (R26). Safe: the model stops (log 9). -/
  | cursorOutsideImage
deriving DecidableEq, Repr

/-- Why the model has no answer. The spec needs no refusal (R178) and no arm of `exec` refuses. -/
inductive Refusal where
  /-- Raised by an arm of `exec` whose instruction has no meaning yet; none has it now. Safe: the model stops. -/
  | notModelled (mnemonic : String)
deriving DecidableEq, Repr

/-- The block right after reset (R21, R190) under the empty launch: `LEN = 0`, `OUT0` empty (log 2).
`FPC` is unspecified after reset and 0 here (log 1); `IMM_REG_CHECK` is the implementation's (log 3). -/
def State.reset : State where
  imem := []
  len := 0
  out0 := []
  immRegCheck := Config.immRegCheck
  cur := 0
  out := []
  status := .run
  cause := .none
  fpc := 0

end Sys2Proof.Machine
end

