-- ==== Sys2Proof/Machine/Operands.lean ====
section
/-! DEFINITION. The text of every operand form: register names, base expressions, displacements, addresses, immediates,
and the frame of a line.
Spec: 44_operand_rendering.md R130 to R142, 30_encoding.md R56 to R58, R66 to R68, 40_dispatch_and_step.md R84. -/

namespace Sys2Proof.Machine

/-! ## Register names (R130, R140) -/

/-- The register table at `w = 0` (R130). -/
def byteRegNames : List String := ["al", "cl", "dl", "bl", "ah", "ch", "dh", "bh"]

/-- The register table at `w = 1` (R130). -/
def wordRegNames : List String := ["ax", "cx", "dx", "bx", "sp", "bp", "si", "di"]

/-- `RegName(reg, w)` (R130). -/
def regName (reg : Field3) : Width → Text
  | .byte => (byteRegNames.getD reg.toNat "").toList
  | .word => (wordRegNames.getD reg.toNat "").toList

/-- `AccName(w)` (R140). -/
def accName (w : Width) : Text := regName 0b000#3 w

/-! ## Numbers (R135) -/

/-- The decimal digits of a natural number, most significant first; `fuel` above the number is enough. -/
def decDigits : Nat → Nat → Text
  | 0, _ => []
  | fuel + 1, n =>
    if n < 10 then [Nat.digitChar n] else decDigits fuel (n / 10) ++ [Nat.digitChar (n % 10)]

/-- The decimal text of a natural number. -/
def decNat (n : Nat) : Text := decDigits (n + 1) n

/-- `Dec(n)` (R135). -/
def dec : Int → Text
  | .ofNat n => decNat n
  | .negSucc k => '-' :: decNat (k + 1)

/-! ## Signed readings (R56, R57, R141) -/

/-- `sext_16(v)`: `v` when `v < 128`, else `v - 256` (00_scope.md R8). -/
def sext16 (v : Byte) : Int := if v.toNat < 128 then v.toNat else (v.toNat : Int) - 256

/-- `signed_16(u)`: `u` when `u < 32768`, else `u - 65536` (00_scope.md R8). -/
def signed16 (u : Word16) : Int := if u.toNat < 32768 then u.toNat else (u.toNat : Int) - 65536

/-- The value of an immediate (R57). -/
def immValue : Imm → Int
  | .byte v => sext16 v
  | .word u => signed16 u

/-! ## Memory operands (R131 to R134) -/

/-- The base expressions, by `r_m` (R131). -/
def baseTexts : List String := ["bx + si", "bx + di", "bp + si", "bp + di", "si", "di", "bp", "bx"]

/-- `Base(r_m)` (R131). -/
def baseText (rm : Field3) : Text := (baseTexts.getD rm.toNat "").toList

/-- `DispText(disp)`: nothing for 0, else the sign between spaces and the magnitude (R133). -/
def dispText (disp : Int) : Text :=
  if disp = 0 then [] else if 0 < disp then " + ".toList ++ dec disp else " - ".toList ++ dec (-disp)

/-- A text in square brackets. -/
def bracketed (t : Text) : Text := '[' :: (t ++ [']'])

/-- A direct address, unsigned (R58, R132, R134). -/
def addrText (a : Word16) : Text := bracketed (dec a.toNat)

/-- The text of a register-or-memory operand of width `w` (R100, R110, R132). -/
def rmText (w : Width) : RegMem → Text
  | .reg rm => regName rm w
  | .direct a => addrText a
  | .base rm => bracketed (baseText rm)
  | .disp8 rm v => bracketed (baseText rm ++ dispText (sext16 v))
  | .disp16 rm u => bracketed (baseText rm ++ dispText (signed16 u))

/-! ## Immediates and the line -/

/-- The width qualifier of variant 2, with its space (R68, R110). -/
def qualifier : Width → Text
  | .byte => "byte ".toList
  | .word => "word ".toList

/-- `Line(dst, src)` (R84). -/
def lineText (dst src : Text) : Text := "mov ".toList ++ dst ++ ", ".toList ++ src ++ ['\n']

end Sys2Proof.Machine
end

