-- ==== Sys2Proof/Machine/Ops.lean ====
section
/-! DEFINITION. The operations every step is made of: reading `IMEM`, appending to `OUT`, moving `CUR`, fault entry, the
end of a run, and the start of a call.
Spec: 20_memory.md R30 to R38, 60_exceptions.md R160, R167, 70_reset_and_hazards.md R190. -/

namespace Sys2Proof.Machine

/-! ## `IMEM` as cells -/

/-- What an address that no cell lists reads as (log 5). -/
def unlistedByte : Byte := 0#8

/-- The byte at an address. -/
def Memory.read : Memory → Nat → Byte
  | [], _ => unlistedByte
  | (k, v) :: m, a => if k = a then v else Memory.read m a

/-- Place a byte at an address and keep the form. The block itself never writes `IMEM` (R30); a launch does. -/
def Memory.write : Memory → Nat → Byte → Memory
  | [], a, v => if v = unlistedByte then [] else [(a, v)]
  | (k, x) :: m, a, v =>
    if a < k then (if v = unlistedByte then (k, x) :: m else (a, v) :: (k, x) :: m)
    else if a = k then (if v = unlistedByte then m else (a, v) :: m)
    else (k, x) :: Memory.write m a v

/-- Place bytes at an address and after it. -/
def Memory.writeBytes (m : Memory) (a : Nat) : List Byte → Memory
  | [] => m
  | b :: bs => Memory.writeBytes (m.write a b) (a + 1) bs

/-- The cells rise strictly from `lo` and none holds the unlisted byte. -/
def Memory.wfFrom : Nat → Memory → Bool
  | _, [] => true
  | lo, (k, v) :: m => decide (lo ≤ k) && (v != unlistedByte) && Memory.wfFrom (k + 1) m

/-- The canonical form of a memory. -/
def Memory.wf (m : Memory) : Bool := Memory.wfFrom 0 m

/-- Every listed address is below `len`: `IMEM` has the indices `0 .. LEN-1` and no other (R30). -/
def Memory.below (len : Nat) (m : Memory) : Bool := m.all fun c => decide (c.1 < len)

/-- The `n` bytes from an address on, in ascending order. -/
def Memory.bytes (m : Memory) : Nat → Nat → List Byte
  | _, 0 => []
  | a, n + 1 => m.read a :: Memory.bytes m (a + 1) n

/-! ## Fetching an instruction's bytes -/

/-- The bytes from the cursor to the end of the stream: what `Fetch8` can read, in order (R31). -/
def State.stream (s : State) : List Byte := s.imem.bytes s.cur (s.len - s.cur)

/-- The instruction at the cursor, under the implementation's `IMM_REG_CHECK` (R80, R81). -/
def State.decodeAtCursor (s : State) : Except DecodeError (Instr × List Byte) := decode s.immRegCheck s.stream

/-! ## The commit of an instruction -/

/-- `Emit(t)`: append to the end of `OUT` (R38). -/
def State.emit (t : Text) (s : State) : State := { s with out := s.out ++ t }

/-- The cursor after `n` fetches (R31). -/
def State.advance (n : Nat) (s : State) : State := { s with cur := s.cur + n }

/-- The whole effect of a decoded instruction: its bytes are consumed and its line is emitted (R80). -/
def State.commit (line : Text) (n : Nat) (s : State) : State := (s.advance n).emit line

/-! ## Faults and the end of a run -/

/-- The value of `CAUSE` for an error kind (R160). -/
def causeOf : DecodeError → Cause
  | .unknownOpcode => .unknownOpcode
  | .truncatedInstruction => .truncatedInstruction
  | .malformedField => .malformedField

/-- The code held in `CAUSE` (R160). -/
def Cause.code : Cause → Nat
  | .none => 0
  | .unknownOpcode => 1
  | .truncatedInstruction => 2
  | .malformedField => 3

/-- Fault entry, `raise e(FPC = ipc)` (R167): `CUR` and `FPC` are the instruction's first byte, `OUT` is unchanged.
There is no return from it: only the start of another call leaves `FAULT` (R168). -/
def State.takeFault (e : DecodeError) (ipc : Nat) (s : State) : State :=
  { s with cur := ipc, fpc := ipc, cause := causeOf e, status := .fault }

/-- The end of the stream between instructions (R80). -/
def State.finish (s : State) : State := { s with status := .done }

/-! ## The start of a call -/

/-- Reset as the caller applies it: a new call on an image and a sink content, for an implementation whose
`IMM_REG_CHECK` is `check` (R21, R190, R192). It keeps nothing of an earlier call. -/
def State.start (check : Bool) (image : List Byte) (out0 : Text) : State where
  imem := Memory.writeBytes [] 0 image
  len := image.length
  out0 := out0
  immRegCheck := check
  cur := 0
  out := out0
  status := .run
  cause := .none
  fpc := 0

end Sys2Proof.Machine
end

