-- ==== Sys2Proof/Machine/Accumulator.lean ====
section
/-! DEFINITION. The meanings of `MOV mem → acc` and `MOV acc → mem`.
Spec: 45_mov_acc_mem.md R150 to R154. -/

namespace Sys2Proof.Machine

/-- The line of `MOV mem → acc` (R150). -/
def movMemAccLine (w : Width) (addr : Word16) : Text := lineText (accName w) (addrText addr)

/-- `MOV mem → acc` (R150). The addressed location is text; it is not read (R154). -/
def execMovMemAcc (w : Width) (addr : Word16) (s : State) : Host.Outcome State Fault Refusal :=
  .next (s.commit (movMemAccLine w addr) (Instr.movMemAcc w addr).length)

/-- The line of `MOV acc → mem` (R151). -/
def movAccMemLine (w : Width) (addr : Word16) : Text := lineText (addrText addr) (accName w)

/-- `MOV acc → mem` (R151). The addressed location is text; it is not written (R154). -/
def execMovAccMem (w : Width) (addr : Word16) (s : State) : Host.Outcome State Fault Refusal :=
  .next (s.commit (movAccMemLine w addr) (Instr.movAccMem w addr).length)

end Sys2Proof.Machine
end

