-- ==== Sys2Proof/Machine/Flags.lean ====
section
/-! DEFINITION. Flag computations: there are none to hold.
"Flags and condition codes: none. The block keeps no status flag" (10_state.md R17), and every instruction rule says
"Flags. None exist" (R100, R110, R120, R150, R151). -/
end

