-- ==== Sys2Proof/Machine/Immediate.lean ====
section
/-! DEFINITION. The meanings of `MOV imm → reg/mem` and `MOV imm → reg (short)`.
Spec: 42_mov_imm_rm.md R110 to R115, 43_mov_imm_reg.md R120 to R123. -/

namespace Sys2Proof.Machine

/-- The line of `MOV imm → reg/mem`: the qualifier stands before the value, for a register destination too (R110, R68). -/
def movImmRegMemLine (rm : RegMem) (imm : Imm) : Text :=
  lineText (rmText imm.width rm) (qualifier imm.width ++ dec (immValue imm))

/-- `MOV imm → reg/mem` (R110): `MalformedField` when the implementation validates the `reg` field and it is not `000`. -/
def execMovImmRegMem (reg : Field3) (rm : RegMem) (imm : Imm) (s : State) : Host.Outcome State Fault Refusal :=
  if regFieldRejected s.immRegCheck reg then .next (s.takeFault .malformedField s.cur)
  else .next (s.commit (movImmRegMemLine rm imm) (Instr.movImmRegMem reg rm imm).length)

/-- The line of `MOV imm → reg (short)`: no qualifier (R120, R122). -/
def movImmRegLine (reg : Field3) (imm : Imm) : Text := lineText (regName reg imm.width) (dec (immValue imm))

/-- `MOV imm → reg (short)` (R120). -/
def execMovImmReg (reg : Field3) (imm : Imm) (s : State) : Host.Outcome State Fault Refusal :=
  .next (s.commit (movImmRegLine reg imm) (Instr.movImmReg reg imm).length)

end Sys2Proof.Machine
end

