-- ==== Sys2Proof/Machine/RegMem.lean ====
section
/-! DEFINITION. The meaning of `MOV reg/mem ↔ reg`.
Spec: 41_mov_rm_reg.md R100 to R104. -/

namespace Sys2Proof.Machine

/-- The line of `MOV reg/mem ↔ reg`: `d = 1` makes `reg` the destination, `d = 0` the source (R100, R101). -/
def movRegMemRegLine (d : Dir) (w : Width) (reg : Field3) (rm : RegMem) : Text :=
  match d with
  | .regIsDest => lineText (regName reg w) (rmText w rm)
  | .regIsSource => lineText (rmText w rm) (regName reg w)

/-- `MOV reg/mem ↔ reg` (R100). -/
def execMovRegMemReg (d : Dir) (w : Width) (reg : Field3) (rm : RegMem) (s : State) :
    Host.Outcome State Fault Refusal :=
  .next (s.commit (movRegMemRegLine d w reg rm) (Instr.movRegMemReg d w reg rm).length)

end Sys2Proof.Machine
end

