-- ==== Sys2Proof/Machine/Dispatch.lean ====
section
/-! DEFINITION. One arm for each instruction of spec/opcode_table.json. -/

namespace Sys2Proof.Machine

def exec (i : Instr) (s : State) : Host.Outcome State Fault Refusal :=
  match i with
  | .movRegMemReg d w reg rm => Sys2Proof.Machine.execMovRegMemReg d w reg rm s
  | .movImmRegMem reg rm imm => Sys2Proof.Machine.execMovImmRegMem reg rm imm s
  | .movImmReg reg imm => Sys2Proof.Machine.execMovImmReg reg imm s
  | .movMemAcc w addr => Sys2Proof.Machine.execMovMemAcc w addr s
  | .movAccMem w addr => Sys2Proof.Machine.execMovAccMem w addr s

end Sys2Proof.Machine
end

