-- ==== Sys2Proof/Machine/Step.lean ====
section
/-! DEFINITION. The one step of the block.
Spec: 40_dispatch_and_step.md R80, 60_exceptions.md R167, R168. -/

namespace Sys2Proof.Machine

/-- `Step()` (R80). In `DONE` and `FAULT` no step is enabled (R14, R168; log 6). In `RUN` the end of the stream between
instructions ends the call; otherwise the instruction at the cursor runs, or its fault is taken (R167; log 7). -/
def step (s : State) : Host.Outcome State Fault Refusal :=
  match s.status with
  | .done => .fault .callDone
  | .fault => .fault (.callFaulted s.cause s.fpc)
  | .run =>
    if s.cur = s.len then .next s.finish
    else if s.len < s.cur then .fault .cursorOutsideImage
    else
      match s.decodeAtCursor with
      | .error e => .next (s.takeFault e s.cur)
      | .ok (i, _) => exec i s

/-- `s` with the instruction whose lowest `nbits` bits are those of `w`, and whose other bits are 0, at the cursor, the
stream long enough to hold the longest instruction, and the call in progress (log 20). -/
def State.withFetchWord (s : State) (nbits w : Nat) : State :=
  { s with
    imem := s.imem.writeBytes s.cur (tableBytes nbits w)
    len := max s.len (s.cur + maxInstrBytes)
    status := .run
    cause := .none }

end Sys2Proof.Machine
end

