-- ==== Sys2Proof/Machine/Pseudocode.lean ====
section
/-! DEFINITION. The spec's pseudocode, line by line: fetches that move `CUR` and may raise, fields taken from a byte by
division, and the step around them. `Machine/Step.lean` is the machine; claims compare it with this text.
Spec: 20_memory.md R31, R32, 30_encoding.md R57, 40_dispatch_and_step.md R80, R81, 41 R100, 42 R110, 43 R120,
44_operand_rendering.md R130 to R133, 45 R150, R151, 60_exceptions.md R167. -/

namespace Sys2Proof.Machine

/-- A piece of pseudocode: it reads and moves the state, and may raise. -/
abbrev Pseudo (α : Type) := StateT State (Except DecodeError) α

/-- `b[hi:lo]` of a byte read as a number, for a field of `width` bits (R7). -/
def bitsP (b lo width : Nat) : Nat := b / 2 ^ lo % 2 ^ width

/-- `Fetch8()` (R31). -/
def fetch8P : Pseudo Nat := fun s =>
  if s.cur = s.len then .error .truncatedInstruction
  else .ok ((s.imem.read s.cur).toNat, { s with cur := s.cur + 1 })

/-- `Fetch16()` (R32). -/
def fetch16P : Pseudo Nat := do
  let lo ← fetch8P
  let hi ← fetch8P
  return hi * 256 + lo

/-- `sext_16` (R8). -/
def sext16P (v : Nat) : Int := if v < 128 then v else (v : Int) - 256

/-- `signed_16` (R8). -/
def signed16P (u : Nat) : Int := if u < 32768 then u else (u : Int) - 65536

/-- `Imm(w)` (R57). -/
def immP (w : Nat) : Pseudo Int :=
  if w = 0 then do
    let v ← fetch8P
    return sext16P v
  else do
    let u ← fetch16P
    return signed16P u

/-- `RegName(reg, w)` (R130). -/
def regNameP (reg w : Nat) : Text := ((if w = 0 then byteRegNames else wordRegNames).getD reg "").toList

/-- `Base(r_m)` (R131). -/
def baseP (rm : Nat) : Text := (baseTexts.getD rm "").toList

/-- `EA(mod, r_m)`, for `mod` other than `11` (R132). -/
def eaP (mod rm : Nat) : Pseudo Text :=
  if mod = 0 ∧ rm = 6 then do
    let a ← fetch16P
    return "[".toList ++ dec a ++ "]".toList
  else if mod = 0 then
    return "[".toList ++ baseP rm ++ "]".toList
  else if mod = 1 then do
    let v ← fetch8P
    return "[".toList ++ baseP rm ++ dispText (sext16P v) ++ "]".toList
  else do
    let u ← fetch16P
    return "[".toList ++ baseP rm ++ dispText (signed16P u) ++ "]".toList

/-- The operand that `r_m` names: a register when `mod = 11`, else memory (R100, R110). -/
def rmP (mod rm w : Nat) : Pseudo Text :=
  if mod = 3 then return regNameP rm w else eaP mod rm

/-- `MovRmReg(b)` (R100). -/
def movRmRegP (b : Nat) : Pseudo Text := do
  let d := bitsP b 1 1
  let w := bitsP b 0 1
  let m ← fetch8P
  let r := regNameP (bitsP m 3 3) w
  let x ← rmP (bitsP m 6 2) (bitsP m 0 3) w
  if d = 1 then return lineText r x else return lineText x r

/-- `MovImmRm(b)` (R110). -/
def movImmRmP (b : Nat) : Pseudo Text := do
  let w := bitsP b 0 1
  let m ← fetch8P
  let s ← get
  if s.immRegCheck = true ∧ bitsP m 3 3 ≠ 0 then throw .malformedField
  else do
    let x ← rmP (bitsP m 6 2) (bitsP m 0 3) w
    let v ← immP w
    let q := if w = 0 then "byte ".toList else "word ".toList
    return lineText x (q ++ dec v)

/-- `MovImmReg(b)` (R120). -/
def movImmRegP (b : Nat) : Pseudo Text := do
  let v ← immP (bitsP b 3 1)
  return lineText (regNameP (bitsP b 0 3) (bitsP b 3 1)) (dec v)

/-- `MovMemAcc(b)` (R150). -/
def movMemAccP (b : Nat) : Pseudo Text := do
  let a ← fetch16P
  return lineText (regNameP 0 (bitsP b 0 1)) ("[".toList ++ dec a ++ "]".toList)

/-- `MovAccMem(b)` (R151). -/
def movAccMemP (b : Nat) : Pseudo Text := do
  let a ← fetch16P
  return lineText ("[".toList ++ dec a ++ "]".toList) (regNameP 0 (bitsP b 0 1))

/-- The part of `Step()` that reads an instruction and gives its line (R80, R81). -/
def instructionP : Pseudo Text := do
  let b ← fetch8P
  if b / 2 = 0b1100011 then movImmRmP b
  else if b / 2 = 0b1010000 then movMemAccP b
  else if b / 2 = 0b1010001 then movAccMemP b
  else if b / 4 = 0b100010 then movRmRegP b
  else if b / 16 = 0b1011 then movImmRegP b
  else throw .unknownOpcode

/-- `Step()` in a state whose `STATUS` is `RUN` (R80), with fault entry (R167). -/
def pseudoStep (s : State) : State :=
  if s.cur = s.len then { s with status := .done }
  else
    match instructionP s with
    | .ok (line, t) => { t with out := t.out ++ line }
    | .error e => { s with cur := s.cur, fpc := s.cur, cause := causeOf e, status := .fault }

end Sys2Proof.Machine
end

