-- ==== Sys2Proof/Safety.lean ====
section
/-! DEFINITION. The terms the claims are written in: the state invariant, what a good run has written, the end of a run
as a scan of the bytes, the output grammar, and what two lines have in common.
Spec: 10_state.md R13, R26, 30_encoding.md R55, R65, R66, R67, 40_dispatch_and_step.md R85, R88. -/

namespace Sys2Proof.Machine

/-! ## The state invariant -/

/-- What holds after reset and after every step (R26), with the form of the memory (R30; log 5). -/
structure State.Inv (s : State) : Prop where
  memory_wf : s.imem.wf = true
  memory_below : s.imem.below s.len = true
  cur_le_len : s.cur ≤ s.len
  out0_kept : s.out0 <+: s.out
  done_at_end : s.status = .done → s.cur = s.len ∧ s.cause = .none
  fault_named : s.status = .fault → s.cause ≠ .none ∧ s.fpc = s.cur ∧ s.cur < s.len
  run_clean : s.status = .run → s.cause = .none

/-! ## Lines and listings -/

/-- The line of an instruction: what the block emits for it (R2). -/
def instrLine : Instr → Text
  | .movRegMemReg d w reg rm => movRegMemRegLine d w reg rm
  | .movImmRegMem _ rm imm => movImmRegMemLine rm imm
  | .movImmReg reg imm => movImmRegLine reg imm
  | .movMemAcc w addr => movMemAccLine w addr
  | .movAccMem w addr => movAccMemLine w addr

/-- The bytes before the cursor are the encodings of well-formed instructions, and `OUT` is `OUT0` followed by their
lines, in order (R13, R88). -/
def State.Listed (s : State) : Prop :=
  ∃ is : List Instr, (∀ i ∈ is, i.wf s.immRegCheck = true) ∧
    s.imem.bytes 0 s.cur = is.flatMap encode ∧ s.out = s.out0 ++ is.flatMap instrLine

/-! ## Runs -/

/-- `n` steps, stopping at the first that gives no next state: `Host.Core.run` of this machine. -/
def runSteps : Nat → State → Host.Outcome State Fault Refusal
  | 0, s => .next s
  | n + 1, s =>
    match step s with
    | .next t => runSteps n t
    | .fault r => .fault r
    | .refused r => .refused r

/-! ## A whole call as a scan of its bytes (R85) -/

/-- What a scan has found: the lines, how many bytes and instructions they took, and the error that ended it, if one. -/
structure Scan where
  text : Text
  bytes : Nat
  count : Nat
  error : Option DecodeError
deriving DecidableEq, Repr

/-- Decode from the head of the bytes until they end or an error is met (R85); `fuel` of their number is enough. -/
def scan (check : Bool) : Nat → List Byte → Scan
  | 0, _ => ⟨[], 0, 0, none⟩
  | _ + 1, [] => ⟨[], 0, 0, none⟩
  | fuel + 1, b :: bs =>
    match decode check (b :: bs) with
    | .error e => ⟨[], 0, 0, some e⟩
    | .ok (i, rest) =>
      let r := scan check fuel rest
      ⟨instrLine i ++ r.text, i.length + r.bytes, r.count + 1, r.error⟩

/-- The state in which a call ends, from the state it is in and the scan of the bytes ahead of it (R85). -/
def State.endOf (s : State) (r : Scan) : State :=
  match r.error with
  | none => { s with cur := s.cur + r.bytes, out := s.out ++ r.text, status := .done }
  | some e =>
    { s with
      cur := s.cur + r.bytes
      out := s.out ++ r.text
      status := .fault
      cause := causeOf e
      fpc := s.cur + r.bytes }

/-! ## Operands of a mode byte, from its bytes (R55, R132) -/

/-- `DispLen(mod, r_m)` (R55). -/
def dispLenOf (mod : BitVec 2) (rm : Field3) : Nat :=
  if mod = 0b11#2 then 0
  else if mod = 0b00#2 then (if rm = 0b110#3 then 2 else 0)
  else if mod = 0b01#2 then 1
  else 2

/-- `hi * 256 + lo`, read as signed 16-bit (R56, R57). -/
def signedPair (lo hi : Byte) : Int :=
  let u := hi.toNat * 256 + lo.toNat
  if u < 32768 then u else (u : Int) - 65536

/-- An 8-bit value, read as signed (R56, R57). -/
def signedByte (v : Byte) : Int := if v.toNat < 128 then v.toNat else (v.toNat : Int) - 256

/-- `EA(mod, r_m)` for `mod` other than `11`, when the bytes after the mode byte are `lo`, `hi` (R132). -/
def eaText (mod : BitVec 2) (rm : Field3) (lo hi : Byte) : Text :=
  if mod = 0b00#2 then
    if rm = 0b110#3 then bracketed (dec (hi.toNat * 256 + lo.toNat : Nat)) else bracketed (baseText rm)
  else if mod = 0b01#2 then bracketed (baseText rm ++ dispText (signedByte lo))
  else bracketed (baseText rm ++ dispText (signedPair lo hi))

/-- The register-or-memory operand of a mode byte (R100, R110). -/
def operandText (w : Width) (mod : BitVec 2) (rm : Field3) (lo hi : Byte) : Text :=
  if mod = 0b11#2 then regName rm w else eaText mod rm lo hi

/-! ## The output grammar (R66, R67) -/

/-- The sixteen names of `register_name` (R66). -/
def registerNames : List String :=
  ["al", "cl", "dl", "bl", "ah", "ch", "dh", "bh", "ax", "cx", "dx", "bx", "sp", "bp", "si", "di"]

/-- `positive_integer` (R66). -/
def IsPositiveInteger (t : Text) : Prop :=
  ∃ c ds, t = c :: ds ∧ c ∈ "123456789".toList ∧ ∀ x ∈ ds, x ∈ "0123456789".toList

/-- `integer` (R66). -/
def IsInteger (t : Text) : Prop := t = "0".toList ∨ IsPositiveInteger t

/-- `signed_integer` (R66). -/
def IsSignedInteger (t : Text) : Prop := IsInteger t ∨ ∃ p, IsPositiveInteger p ∧ t = "-".toList ++ p

/-- `base` (R66). -/
def IsBase (t : Text) : Prop :=
  ∃ b ∈ ["bx + si", "bx + di", "bp + si", "bp + di", "si", "di", "bp", "bx"], t = b.toList

/-- `addr_expr` (R66). -/
def IsAddrExpr (t : Text) : Prop :=
  IsInteger t ∨ IsBase t ∨
    ∃ b n, IsBase b ∧ IsPositiveInteger n ∧ (t = b ++ " + ".toList ++ n ∨ t = b ++ " - ".toList ++ n)

/-- `reg_or_mem` (R66). -/
def IsRegOrMem (t : Text) : Prop :=
  (∃ r ∈ registerNames, t = r.toList) ∨ ∃ a, IsAddrExpr a ∧ t = "[".toList ++ a ++ "]".toList

/-- `reg_or_mem_or_imm` (R66). -/
def IsRegOrMemOrImm (t : Text) : Prop :=
  IsRegOrMem t ∨ IsSignedInteger t ∨
    ∃ v, IsSignedInteger v ∧ (t = "byte ".toList ++ v ∨ t = "word ".toList ++ v)

/-- `line` (R66). -/
def IsLine (t : Text) : Prop :=
  ∃ dst src, IsRegOrMem dst ∧ IsRegOrMemOrImm src ∧ t = "mov ".toList ++ dst ++ ", ".toList ++ src ++ "\n".toList

/-- "The full character set of the output", the newline apart (R67). -/
def lineChars : Text :=
  ['a', 'b', 'c', 'd', 'e', 'h', 'i', 'l', 'm', 'o', 'p', 'r', 's', 't', 'v', 'w', 'x', 'y'] ++
  ['0', '1', '2', '3', '4', '5', '6', '7', '8', '9', ' ', ',', '[', ']', '+', '-']

/-! ## What two lines have in common (R65) -/

/-- An operand as it is printed: which encoding gave it is gone. -/
inductive Operand where
  | reg (w : Width) (r : Field3)
  | direct (a : Word16)
  | based (rm : Field3) (disp : Int)
  /-- An immediate, with the qualifier it is printed with, if one. -/
  | imm (qual : Option Width) (v : Int)
deriving DecidableEq, Repr

/-- The printed operand of a register-or-memory operand of width `w`. -/
def rmOperand (w : Width) : RegMem → Operand
  | .reg r => .reg w r
  | .direct a => .direct a
  | .base rm => .based rm 0
  | .disp8 rm v => .based rm (sext16 v)
  | .disp16 rm u => .based rm (signed16 u)

/-- The destination and the source of an instruction, as printed. -/
def instrOperands : Instr → Operand × Operand
  | .movRegMemReg .regIsDest w reg rm => (.reg w reg, rmOperand w rm)
  | .movRegMemReg .regIsSource w reg rm => (rmOperand w rm, .reg w reg)
  | .movImmRegMem _ rm imm => (rmOperand imm.width rm, .imm (some imm.width) (immValue imm))
  | .movImmReg reg imm => (.reg imm.width reg, .imm none (immValue imm))
  | .movMemAcc w a => (.reg w 0b000#3, .direct a)
  | .movAccMem w a => (.direct a, .reg w 0b000#3)

end Sys2Proof.Machine
end

