-- ==== Sys2Proof/Certificates/Slice0/Obligations.lean ====
section
/-! DEFINITION. The statements for the provers, one definition each.
Each docstring names the rule or section of spec/ that the statement formalises. -/

open Sys2Proof Sys2Proof.Machine

/-! ## Encoding -/

/-- The bytes of the eight scenarios of the source decode to the instructions they stand for (95_test_vectors.md S1 to S8). -/
def Obligations.SpecWordsDecode : Prop :=
  ∀ check : Bool,
    decode check [0x89#8, 0xD9#8] = .ok (.movRegMemReg .regIsSource .word 0b011#3 (.reg 0b001#3), []) ∧
    decode check [0xB1#8, 0x0C#8] = .ok (.movImmReg 0b001#3 (.byte 0x0C#8), []) ∧
    decode check [0xB9#8, 0x0C#8, 0x00#8] = .ok (.movImmReg 0b001#3 (.word 0x000C#16), []) ∧
    decode check [0x8B#8, 0x5E#8, 0x00#8] =
      .ok (.movRegMemReg .regIsDest .word 0b011#3 (.disp8 0b110#3 0x00#8), []) ∧
    decode check [0x8B#8, 0x46#8, 0xD9#8] =
      .ok (.movRegMemReg .regIsDest .word 0b000#3 (.disp8 0b110#3 0xD9#8), []) ∧
    decode check [0xC6#8, 0x03#8, 0x07#8] = .ok (.movImmRegMem 0b000#3 (.base 0b011#3) (.byte 0x07#8), []) ∧
    decode check [0xA1#8, 0xFB#8, 0x09#8] = .ok (.movMemAcc .word 0x09FB#16, []) ∧
    decode check [0xA3#8, 0x0F#8, 0x00#8] = .ok (.movAccMem .word 0x000F#16, [])

/-- Decoding the encoding of a well-formed instruction gives it back and leaves what follows it (30_encoding.md sections 2
to 5). -/
def Obligations.DecodeEncodeAgree : Prop :=
  ∀ (check : Bool) (i : Instr) (rest : List Byte), i.wf check = true → decode check (encode i ++ rest) = .ok (i, rest)

/-- The other direction: what decodes is well-formed, and the bytes taken are exactly its encoding, so each run of bytes
has one meaning (30_encoding.md sections 2 to 5). -/
def Obligations.DecodedBytesAreTheEncoding : Prop :=
  ∀ (check : Bool) (bs rest : List Byte) (i : Instr),
    decode check bs = .ok (i, rest) → i.wf check = true ∧ bs = encode i ++ rest

/-- R81: `Variant(b)` by its five prefix tests, longest prefix first. -/
def Obligations.VariantByPrefixTests : Prop :=
  ∀ b : Byte, variantOf b =
    if b >>> 1 = 0b1100011#8 then some .immRm
    else if b >>> 1 = 0b1010000#8 then some .memAcc
    else if b >>> 1 = 0b1010001#8 then some .accMem
    else if b >>> 2 = 0b100010#8 then some .rmReg
    else if b >>> 4 = 0b1011#8 then some .immReg
    else none

/-- The order of the five tests does not matter (40_dispatch_and_step.md section 2, 90_conflicts.md C2): every order of
the descriptors gives the same variant. -/
def Obligations.DispatchOrderIrrelevant : Prop :=
  ∀ (ds : List Descriptor) (b : Byte), ds.Perm descriptors → firstMatch ds b = variantOf b

/-- The match and mask pairs of the opcode table say the same as the descriptors (30_encoding.md section 2). -/
def Obligations.MatchMaskTable : Prop :=
  ∀ b : Byte,
    (variantOf b = some .rmReg ↔ b &&& 0xFC#8 = 0x88#8) ∧
    (variantOf b = some .immRm ↔ b &&& 0xFE#8 = 0xC6#8) ∧
    (variantOf b = some .immReg ↔ b &&& 0xF0#8 = 0xB0#8) ∧
    (variantOf b = some .memAcc ↔ b &&& 0xFE#8 = 0xA0#8) ∧
    (variantOf b = some .accMem ↔ b &&& 0xFE#8 = 0xA2#8)

/-- R36: the bytes read are exactly the instruction's, two to six of them, and none after it: with any other bytes after
it, and with none at all, the same instruction is read. -/
def Obligations.NoReadAhead : Prop :=
  ∀ (check : Bool) (bs rest : List Byte) (i : Instr), decode check bs = .ok (i, rest) →
    bs.length = i.length + rest.length ∧ 2 ≤ i.length ∧ i.length ≤ 6 ∧
      ∀ tail : List Byte, decode check (bs.take i.length ++ tail) = .ok (i, tail)

/-- A well-formed instruction cut short anywhere after its first byte is `TruncatedInstruction` (60_exceptions.md
section 1). -/
def Obligations.CutInstructionIsTruncated : Prop :=
  ∀ (check : Bool) (i : Instr) (n : Nat), i.wf check = true → 0 < n → n < i.length →
    decode check ((encode i).take n) = .error .truncatedInstruction

/-- Six bytes after a recognised first byte always decode, unless the implementation rejects a `reg` field that is not
`000` (60_exceptions.md section 1, "what cannot fault"). -/
def Obligations.RecognisedAndCompleteDecodes : Prop :=
  ∀ (check : Bool) (b m : Byte) (bs : List Byte), variantOf b ≠ none → 4 ≤ bs.length →
    (variantOf b = some .immRm → check = true → regField m = 0b000#3) →
    ∃ i rest, decode check (b :: m :: bs) = .ok (i, rest)

/-- With `IMM_REG_CHECK` false the `reg` field of variant 2 has no effect on the line, the length, or the error
(42_mov_imm_rm.md on its reg field). -/
def Obligations.RegFieldIgnoredWhenUnchecked : Prop :=
  ∀ (b m m' : Byte) (bs : List Byte), variantOf b = some .immRm →
    modField m = modField m' → rmField m = rmField m' →
    (∀ i rest, decode false (b :: m :: bs) = .ok (i, rest) →
      ∃ j, decode false (b :: m' :: bs) = .ok (j, rest) ∧ instrLine j = instrLine i ∧ j.length = i.length) ∧
    (∀ e, decode false (b :: m :: bs) = .error e → decode false (b :: m' :: bs) = .error e)

/-! ## Operands -/

/-- R130: the register table. -/
def Obligations.RegisterNameTable : Prop :=
  regName 0b000#3 .byte = "al".toList ∧ regName 0b000#3 .word = "ax".toList ∧
  regName 0b001#3 .byte = "cl".toList ∧ regName 0b001#3 .word = "cx".toList ∧
  regName 0b010#3 .byte = "dl".toList ∧ regName 0b010#3 .word = "dx".toList ∧
  regName 0b011#3 .byte = "bl".toList ∧ regName 0b011#3 .word = "bx".toList ∧
  regName 0b100#3 .byte = "ah".toList ∧ regName 0b100#3 .word = "sp".toList ∧
  regName 0b101#3 .byte = "ch".toList ∧ regName 0b101#3 .word = "bp".toList ∧
  regName 0b110#3 .byte = "dh".toList ∧ regName 0b110#3 .word = "si".toList ∧
  regName 0b111#3 .byte = "bh".toList ∧ regName 0b111#3 .word = "di".toList

/-- R24: the register table is total, and every name is one of the fixed sixteen. -/
def Obligations.RegisterDecodeIsTotal : Prop :=
  ∀ (reg : Field3) (w : Width), ∃ name ∈ registerNames, regName reg w = name.toList

/-- R140: the accumulator's name is `RegName(000, w)`: `al` when `w = 0`, `ax` when `w = 1`. -/
def Obligations.AccumulatorName : Prop :=
  (∀ w : Width, accName w = regName 0b000#3 w) ∧ accName .byte = "al".toList ∧ accName .word = "ax".toList

/-- R131: the base expression table. -/
def Obligations.BaseExpressionTable : Prop :=
  baseText 0b000#3 = "bx + si".toList ∧ baseText 0b001#3 = "bx + di".toList ∧
  baseText 0b010#3 = "bp + si".toList ∧ baseText 0b011#3 = "bp + di".toList ∧
  baseText 0b100#3 = "si".toList ∧ baseText 0b101#3 = "di".toList ∧
  baseText 0b110#3 = "bp".toList ∧ baseText 0b111#3 = "bx".toList

/-- R132: the effective-address renderer, with the bytes it reads and the fault it can raise. -/
def Obligations.EffectiveAddress : Prop :=
  ∀ (mod : BitVec 2) (rm : Field3) (w : Width), mod ≠ 0b11#2 →
    (∀ (lo hi : Byte) (rest : List Byte), ∃ x : RegMem,
      decodeRegMem mod rm (lo :: hi :: rest) = .ok (x, (lo :: hi :: rest).drop (dispLenOf mod rm)) ∧
        rmText w x = eaText mod rm lo hi) ∧
    (∀ bs : List Byte, bs.length < dispLenOf mod rm → decodeRegMem mod rm bs = .error .truncatedInstruction) ∧
    (∀ bs : List Byte, dispLenOf mod rm ≤ bs.length →
      ∃ x : RegMem, decodeRegMem mod rm bs = .ok (x, bs.drop (dispLenOf mod rm)))

/-- R133: the rendering of a displacement: nothing for 0, else a sign between spaces and the magnitude, which for
`-32768` is `32768`. -/
def Obligations.DisplacementText : Prop :=
  (∀ d : Int, d = 0 → dispText d = []) ∧
  (∀ d : Int, 0 < d → dispText d = " + ".toList ++ dec d) ∧
  (∀ d : Int, d < 0 → dispText d = " - ".toList ++ dec (-d)) ∧
  dispText (-32768) = " - 32768".toList

/-- `Dec(n)` by its three equations (44_operand_rendering.md section 3), for every integer. -/
def Obligations.DecimalEquations : Prop :=
  (∀ n : Int, n < 0 → dec n = '-' :: dec (-n)) ∧
  (∀ n : Nat, n ≤ 9 → dec n = ["0123456789".toList.getD n ' ']) ∧
  (∀ n : Nat, 10 ≤ n → dec n = dec (n / 10 : Nat) ++ dec (n % 10 : Nat))

/-- Decimal texts say what they mean: two integers with the same text are the same, and a text starts with `0` for zero
only (44_operand_rendering.md section 3, "no leading zero"; the format is the spec's decision D5). -/
def Obligations.DecimalTextIsFaithful : Prop :=
  (∀ m n : Int, dec m = dec n → m = n) ∧ ∀ n : Int, (dec n).head? = some '0' → n = 0

/-- R141: sign extension: the 16-bit reading and the 8-bit reading of a byte are the same integer, and the boundary
values. -/
def Obligations.SignExtension : Prop :=
  (∀ v : Byte, sext16 v = (v.signExtend 16).toInt ∧ sext16 v = v.toInt) ∧ (∀ u : Word16, signed16 u = u.toInt) ∧
  sext16 0x00#8 = 0 ∧ sext16 0x7F#8 = 127 ∧ sext16 0x80#8 = -128 ∧ sext16 0xFF#8 = -1 ∧ sext16 0xD9#8 = -39 ∧
  signed16 0x0000#16 = 0 ∧ signed16 0x7FFF#16 = 32767 ∧ signed16 0x8000#16 = -32768 ∧ signed16 0xFFFF#16 = -1 ∧
  dispText (sext16 0xFF#8) = " - 1".toList ∧
  ∀ v : Byte, v.getLsbD 7 = true → ∃ n : Nat, 1 ≤ n ∧ n ≤ 128 ∧ dispText (sext16 v) = " - ".toList ++ dec n

/-- R57: `Imm(w)` reads one byte when `w = 0` and two, low byte first, when `w = 1`, and reads them as signed; a missing
byte is a truncation; the immediate is the last part of its instruction, after any displacement or address bytes. -/
def Obligations.ImmediateReading : Prop :=
  (∀ (v : Byte) (rest : List Byte), ∃ x : Imm, decodeImm .byte (v :: rest) = .ok (x, rest) ∧
    x.width = .byte ∧ x.byteLen = 1 ∧ immValue x = signedByte v) ∧
  (∀ (lo hi : Byte) (rest : List Byte), ∃ x : Imm, decodeImm .word (lo :: hi :: rest) = .ok (x, rest) ∧
    x.width = .word ∧ x.byteLen = 2 ∧ immValue x = signedPair lo hi) ∧
  decodeImm .byte [] = .error .truncatedInstruction ∧ decodeImm .word [] = .error .truncatedInstruction ∧
  (∀ lo : Byte, decodeImm .word [lo] = .error .truncatedInstruction) ∧
  (∀ (reg : Field3) (rm : RegMem) (x : Imm), x.bytes.length = x.byteLen ∧
    (∃ b m, encode (.movImmRegMem reg rm x) = b :: m :: (rm.dispBytes ++ x.bytes)) ∧
    ∃ b, encode (.movImmReg reg x) = b :: x.bytes)

/-! ## Lines -/

/-- Every line is a sentence of the output grammar (30_encoding.md section 7). -/
def Obligations.LinesFollowTheGrammar : Prop := ∀ i : Instr, IsLine (instrLine i)

/-- A line ends in a newline, has no other, and is otherwise written in the output's character set (30_encoding.md
section 7, 10_state.md section 3). -/
def Obligations.LineCharacters : Prop :=
  ∀ i : Instr, ∃ body : Text, instrLine i = body ++ ['\n'] ∧ ∀ c ∈ body, c ∈ lineChars

/-- A line has 10 to 35 characters (70_reset_and_hazards.md section 6), and both bounds are met. -/
def Obligations.LineLengthBounds : Prop :=
  (∀ i : Instr, 10 ≤ (instrLine i).length ∧ (instrLine i).length ≤ 35) ∧
  (∃ i : Instr, i.wf true = true ∧ (instrLine i).length = 10) ∧ ∃ i : Instr, i.wf true = true ∧ (instrLine i).length = 35

/-- The four kinds of redundant encoding give the same line (30_encoding.md section 6). -/
def Obligations.RedundantEncodings : Prop :=
  (∀ (w : Width) (r q : Field3), instrLine (.movRegMemReg .regIsSource w r (.reg q)) =
    instrLine (.movRegMemReg .regIsDest w q (.reg r))) ∧
  (∀ (d : Dir) (w : Width) (r q : Field3),
    instrLine (.movRegMemReg d w r (.disp8 q 0#8)) = instrLine (.movRegMemReg d w r (.base q)) ∧
    instrLine (.movRegMemReg d w r (.disp16 q 0#16)) = instrLine (.movRegMemReg d w r (.base q))) ∧
  (∀ (d : Dir) (w : Width) (r q : Field3) (v : Byte),
    instrLine (.movRegMemReg d w r (.disp16 q (v.signExtend 16))) = instrLine (.movRegMemReg d w r (.disp8 q v))) ∧
  ∀ (w : Width) (a : Word16),
    instrLine (.movRegMemReg .regIsDest w 0b000#3 (.direct a)) = instrLine (.movMemAcc w a) ∧
    instrLine (.movRegMemReg .regIsSource w 0b000#3 (.direct a)) = instrLine (.movAccMem w a)

/-- Two instructions have the same line exactly when they have the same printed operands: the redundancies of
30_encoding.md section 6 and the ignored `reg` field are the only ones, and no line is ambiguous. -/
def Obligations.SameLineIffSameOperands : Prop :=
  ∀ i j : Instr, instrLine i = instrLine j ↔ instrOperands i = instrOperands j

/-! ## Instructions -/

/-- `MOV reg/mem ↔ reg` completes in every state: it appends its line and moves the cursor by its length
(41_mov_rm_reg.md; 30_encoding.md section 5). -/
def Obligations.MovRegMemRegCompletes : Prop :=
  ∀ (d : Dir) (w : Width) (reg : Field3) (rm : RegMem) (s : State),
    exec (.movRegMemReg d w reg rm) s = .next { s with
      cur := s.cur + (2 + rm.dispBytes.length)
      out := s.out ++ ("mov ".toList ++ (if d = .regIsDest then regName reg w else rmText w rm) ++ ", ".toList ++
        (if d = .regIsDest then rmText w rm else regName reg w) ++ "\n".toList) }

/-- `MOV imm → reg/mem` completes in every state whose implementation does not reject its `reg` field: it appends its
line, with the qualifier, and moves the cursor by its length (42_mov_imm_rm.md; 30_encoding.md section 5). -/
def Obligations.MovImmRegMemCompletes : Prop :=
  ∀ (reg : Field3) (rm : RegMem) (imm : Imm) (s : State), (s.immRegCheck = false ∨ reg = 0b000#3) →
    exec (.movImmRegMem reg rm imm) s = .next { s with
      cur := s.cur + (2 + rm.dispBytes.length + imm.bytes.length)
      out := s.out ++ ("mov ".toList ++ rmText imm.width rm ++ ", ".toList ++
        (if imm.width = .byte then "byte ".toList else "word ".toList) ++ dec (immValue imm) ++ "\n".toList) }

/-- `MOV imm → reg/mem` raises `MalformedField` when the implementation validates its `reg` field and it is not `000`
(42_mov_imm_rm.md), with the fault entry of 60_exceptions.md section 4. -/
def Obligations.MovImmRegMemRejects : Prop :=
  ∀ (reg : Field3) (rm : RegMem) (imm : Imm) (s : State), s.immRegCheck = true → reg ≠ 0b000#3 →
    exec (.movImmRegMem reg rm imm) s =
      .next { s with status := .fault, cause := .malformedField, fpc := s.cur }

/-- `MOV imm → reg (short)` completes in every state: its line has no qualifier (43_mov_imm_reg.md; 30_encoding.md
section 5). -/
def Obligations.MovImmRegCompletes : Prop :=
  ∀ (reg : Field3) (imm : Imm) (s : State),
    exec (.movImmReg reg imm) s = .next { s with
      cur := s.cur + (1 + imm.bytes.length)
      out := s.out ++ ("mov ".toList ++ regName reg imm.width ++ ", ".toList ++ dec (immValue imm) ++ "\n".toList) }

/-- `MOV mem → acc` completes in every state: the accumulator is the destination and the address is unsigned
(45_mov_acc_mem.md; 30_encoding.md section 5). -/
def Obligations.MovMemAccCompletes : Prop :=
  ∀ (w : Width) (a : Word16) (s : State),
    exec (.movMemAcc w a) s = .next { s with
      cur := s.cur + 3
      out := s.out ++ ("mov ".toList ++ regName 0b000#3 w ++ ", [".toList ++ dec a.toNat ++ "]\n".toList) }

/-- `MOV acc → mem` completes in every state: the accumulator is the source and the address is unsigned
(45_mov_acc_mem.md; 30_encoding.md section 5). -/
def Obligations.MovAccMemCompletes : Prop :=
  ∀ (w : Width) (a : Word16) (s : State),
    exec (.movAccMem w a) s = .next { s with
      cur := s.cur + 3
      out := s.out ++ ("mov [".toList ++ dec a.toNat ++ "], ".toList ++ regName 0b000#3 w ++ "\n".toList) }

/-- The frame of all five instructions (`movRegMemReg`, `movImmRegMem`, `movImmReg`, `movMemAcc`, `movAccMem`).
Whenever one gives a next state: every byte of `IMEM` reads as before, the launch parameters are unchanged, and either the
instruction completed, writing only the cursor and the end of the sink, or it is `movImmRegMem` with a rejected `reg`
field, which writes only the fault registers and leaves the cursor and the sink (41 to 45, "State written"; 20_memory.md
section 1; 60_exceptions.md section 4). -/
def Obligations.InstructionFrame : Prop :=
  ∀ (i : Instr) (s t : State), exec i s = .next t →
    (∀ a : Nat, t.imem.read a = s.imem.read a) ∧
    t.imem = s.imem ∧ t.len = s.len ∧ t.out0 = s.out0 ∧ t.immRegCheck = s.immRegCheck ∧
    ((t.status = s.status ∧ t.cause = s.cause ∧ t.fpc = s.fpc ∧
        t.cur = s.cur + (encode i).length ∧ t.out = s.out ++ instrLine i) ∨
      ((∃ reg rm imm, i = .movImmRegMem reg rm imm ∧ s.immRegCheck = true ∧ reg ≠ 0b000#3) ∧
        t.cur = s.cur ∧ t.out = s.out ∧ t.status = .fault ∧ t.cause = .malformedField ∧ t.fpc = s.cur))

/-! ## The step -/

/-- When the bytes from the cursor to the end of the stream decode to an instruction, the step is that instruction's
meaning (40_dispatch_and_step.md section 1). -/
def Obligations.StepRunsDecodedInstruction : Prop :=
  ∀ (s : State) (i : Instr) (rest : List Byte), s.status = .run → s.cur < s.len →
    decode s.immRegCheck (s.imem.bytes s.cur (s.len - s.cur)) = .ok (i, rest) → step s = exec i s

/-- When `IMEM` holds the encoding of a well-formed instruction at the cursor, wholly inside the image, the step is that
instruction's meaning, whatever stands before and after it (40_dispatch_and_step.md section 1). -/
def Obligations.StepExecutesInstructionAtCursor : Prop :=
  ∀ (s : State) (i : Instr), s.status = .run → i.wf s.immRegCheck = true → s.cur + (encode i).length ≤ s.len →
    (∀ k : Nat, k < (encode i).length → (encode i)[k]? = some (s.imem.read (s.cur + k))) → step s = exec i s

/-- The end of the stream between instructions ends the call: `STATUS` becomes `DONE` and nothing else changes
(40_dispatch_and_step.md section 1). -/
def Obligations.StepEndsAtEndOfStream : Prop :=
  ∀ s : State, s.status = .run → s.cur = s.len → step s = .next { s with status := .done }

/-- `DONE` and `FAULT` are terminal: no step gives a next state (10_state.md section 4, 60_exceptions.md section 5).
That the model answers there with a fault that tells the two apart is its own convention (log 6). -/
def Obligations.NoStepAfterTheEnd : Prop :=
  ∀ s : State, s.status ≠ .run →
    (∀ t : State, step s ≠ .next t) ∧ (s.status = .done → step s = .fault .callDone) ∧
      (s.status = .fault → step s = .fault (.callFaulted s.cause s.fpc))

/-- In `RUN` with the cursor past the end of the image, where the spec has neither a byte nor an end of stream and no run
comes (10_state.md section 7), the model stops by name (its own choice, log 9). -/
def Obligations.CursorPastTheEndStops : Prop :=
  ∀ s : State, s.status = .run → s.len < s.cur → step s = .fault .cursorOutsideImage

/-- R161: a first byte outside the 26 recognised values is `UnknownOpcode`, whatever bytes follow it. -/
def Obligations.UnknownOpcodeFaults : Prop :=
  ∀ s : State, s.status = .run → s.cur < s.len →
    (∀ b ∈ [0x88#8, 0x89#8, 0x8A#8, 0x8B#8, 0xA0#8, 0xA1#8, 0xA2#8, 0xA3#8, 0xB0#8, 0xB1#8, 0xB2#8, 0xB3#8, 0xB4#8,
      0xB5#8, 0xB6#8, 0xB7#8, 0xB8#8, 0xB9#8, 0xBA#8, 0xBB#8, 0xBC#8, 0xBD#8, 0xBE#8, 0xBF#8, 0xC6#8, 0xC7#8],
      s.imem.read s.cur ≠ b) →
    step s = .next { s with status := .fault, cause := .unknownOpcode, fpc := s.cur }

/-- R100: the step on `MOV reg/mem ↔ reg`, from the bytes of `IMEM`: its line and its length when it is complete, and
`TruncatedInstruction` when the stream ends inside it. -/
def Obligations.MovRegMemRegStep : Prop :=
  ∀ s : State, s.status = .run → s.cur < s.len → s.imem.read s.cur >>> 2 = 0b100010#8 →
    let b := s.imem.read s.cur
    let m := s.imem.read (s.cur + 1)
    let w := Width.ofBit (b.getLsbD 0)
    let r := regName (regField m) w
    let x := operandText w (modField m) (rmField m) (s.imem.read (s.cur + 2)) (s.imem.read (s.cur + 3))
    let n := 2 + dispLenOf (modField m) (rmField m)
    (s.cur + n ≤ s.len → step s = .next { s with
      cur := s.cur + n
      out := s.out ++ (if b.getLsbD 1 = true then lineText r x else lineText x r) }) ∧
    (s.len < s.cur + n →
      step s = .next { s with status := .fault, cause := .truncatedInstruction, fpc := s.cur })

/-- R110: the step on `MOV imm → reg/mem`, from the bytes of `IMEM`: its line and its length when it is complete,
`MalformedField` when the implementation validates the `reg` field and it is not `000` (before any further byte is
looked at), and else `TruncatedInstruction` when the stream ends inside it. -/
def Obligations.MovImmRegMemStep : Prop :=
  ∀ s : State, s.status = .run → s.cur < s.len → s.imem.read s.cur >>> 1 = 0b1100011#8 →
    let b := s.imem.read s.cur
    let m := s.imem.read (s.cur + 1)
    let w := Width.ofBit (b.getLsbD 0)
    let k := s.cur + 2 + dispLenOf (modField m) (rmField m)
    let x := operandText w (modField m) (rmField m) (s.imem.read (s.cur + 2)) (s.imem.read (s.cur + 3))
    let v := if w = .byte then signedByte (s.imem.read k) else signedPair (s.imem.read k) (s.imem.read (k + 1))
    let q := if w = .byte then "byte ".toList else "word ".toList
    let e := if w = .byte then k + 1 else k + 2
    (s.cur + 2 ≤ s.len → s.immRegCheck = true → regField m ≠ 0b000#3 →
      step s = .next { s with status := .fault, cause := .malformedField, fpc := s.cur }) ∧
    (s.immRegCheck = false ∨ regField m = 0b000#3 → e ≤ s.len →
      step s = .next { s with cur := e, out := s.out ++ lineText x (q ++ dec v) }) ∧
    (s.immRegCheck = false ∨ regField m = 0b000#3 ∨ s.len < s.cur + 2 → s.len < e →
      step s = .next { s with status := .fault, cause := .truncatedInstruction, fpc := s.cur })

/-- R120: the step on `MOV imm → reg (short)`, from the bytes of `IMEM`: `w` is bit 3 and `reg` bits 2:0 of the first
byte. -/
def Obligations.MovImmRegStep : Prop :=
  ∀ s : State, s.status = .run → s.cur < s.len → s.imem.read s.cur >>> 4 = 0b1011#8 →
    let b := s.imem.read s.cur
    let w := Width.ofBit (b.getLsbD 3)
    let v := if w = .byte then signedByte (s.imem.read (s.cur + 1))
      else signedPair (s.imem.read (s.cur + 1)) (s.imem.read (s.cur + 2))
    let n := if w = .byte then 2 else 3
    (s.cur + n ≤ s.len → step s = .next { s with
      cur := s.cur + n
      out := s.out ++ lineText (regName (b.extractLsb' 0 3) w) (dec v) }) ∧
    (s.len < s.cur + n →
      step s = .next { s with status := .fault, cause := .truncatedInstruction, fpc := s.cur })

/-- R150: the step on `MOV mem → acc`, from the bytes of `IMEM`: two address bytes whatever `w` is, unsigned. -/
def Obligations.MovMemAccStep : Prop :=
  ∀ s : State, s.status = .run → s.cur < s.len → s.imem.read s.cur >>> 1 = 0b1010000#8 →
    let w := Width.ofBit ((s.imem.read s.cur).getLsbD 0)
    let a := (s.imem.read (s.cur + 2)).toNat * 256 + (s.imem.read (s.cur + 1)).toNat
    (s.cur + 3 ≤ s.len → step s = .next { s with
      cur := s.cur + 3
      out := s.out ++ lineText (accName w) (bracketed (dec a)) }) ∧
    (s.len < s.cur + 3 →
      step s = .next { s with status := .fault, cause := .truncatedInstruction, fpc := s.cur })

/-- R151: the step on `MOV acc → mem`, from the bytes of `IMEM`. -/
def Obligations.MovAccMemStep : Prop :=
  ∀ s : State, s.status = .run → s.cur < s.len → s.imem.read s.cur >>> 1 = 0b1010001#8 →
    let w := Width.ofBit ((s.imem.read s.cur).getLsbD 0)
    let a := (s.imem.read (s.cur + 2)).toNat * 256 + (s.imem.read (s.cur + 1)).toNat
    (s.cur + 3 ≤ s.len → step s = .next { s with
      cur := s.cur + 3
      out := s.out ++ lineText (bracketed (dec a)) (accName w) }) ∧
    (s.len < s.cur + 3 →
      step s = .next { s with status := .fault, cause := .truncatedInstruction, fpc := s.cur })

/-- R23: a step that decodes an instruction moves the cursor forward by 2, 3, 4, 5 or 6 bytes, so no byte is revisited,
and each of the five advances occurs. -/
def Obligations.CursorAdvances : Prop :=
  (∀ s t : State, step s = .next t → t.status = .run → s.cur + 2 ≤ t.cur ∧ t.cur ≤ s.cur + 6) ∧
  ∀ n : Nat, 2 ≤ n → n ≤ 6 → ∃ s t : State, s.Inv ∧ step s = .next t ∧ t.status = .run ∧ t.cur = s.cur + n

/-- One line for each consumed instruction, and a step that does not consume one writes nothing (10_state.md section 7;
that nothing of a faulting instruction is written is the spec's decision D9, log 8). -/
def Obligations.OneLinePerInstruction : Prop :=
  ∀ s t : State, step s = .next t →
    (t.status = .run ∧ ∃ i : Instr, i.wf s.immRegCheck = true ∧ s.imem.bytes s.cur i.length = encode i ∧
      t.cur = s.cur + i.length ∧ t.cur ≤ s.len ∧ t.out = s.out ++ instrLine i) ∨
    (t.status ≠ .run ∧ t.cur = s.cur ∧ t.out = s.out)

/-- Fault entry is precise (60_exceptions.md section 4, the spec's decision D9, log 8): a step that ends in `FAULT` names
a cause, records the cursor in `FPC`, and changes nothing else. -/
def Obligations.FaultEntryIsPrecise : Prop :=
  ∀ s t : State, step s = .next t → t.status = .fault →
    s.status = .run ∧ s.cur < s.len ∧ t.cause ≠ .none ∧
      t = { s with status := .fault, cause := t.cause, fpc := s.cur }

/-- The frame of the step: every byte of `IMEM` and every launch parameter is unchanged, the sink only grows, the cursor
never moves back, and `CAUSE` and `FPC` change at fault entry only (20_memory.md section 1, 10_state.md sections 3, 4,
70_reset_and_hazards.md section 4). -/
def Obligations.StepFrame : Prop :=
  ∀ s t : State, step s = .next t →
    (∀ a : Nat, t.imem.read a = s.imem.read a) ∧ t.imem = s.imem ∧ t.len = s.len ∧ t.out0 = s.out0 ∧
    t.immRegCheck = s.immRegCheck ∧ s.out <+: t.out ∧ s.cur ≤ t.cur ∧
    (t.status ≠ .fault → t.cause = s.cause ∧ t.fpc = s.fpc)

/-- What a step writes for an instruction depends on that instruction's bytes and on `IMM_REG_CHECK` alone: not on where it
stands, on what is before or after it, or on the sink (10_state.md section 5). -/
def Obligations.LineDependsOnItsBytesOnly : Prop :=
  ∀ (s s' t : State), s.status = .run → s'.status = .run → s.immRegCheck = s'.immRegCheck →
    step s = .next t → t.status = .run → s'.cur + (t.cur - s.cur) ≤ s'.len →
    (∀ k : Nat, k < t.cur - s.cur → s'.imem.read (s'.cur + k) = s.imem.read (s.cur + k)) →
    ∃ line : Text, t.out = s.out ++ line ∧
      step s' = .next { s' with cur := s'.cur + (t.cur - s.cur), out := s'.out ++ line }

/-- The codes held in `CAUSE` (60_exceptions.md section 1; the numbers are the spec's decision D8), and what each error
kind puts there. -/
def Obligations.CauseCodes : Prop :=
  Cause.none.code = 0 ∧ (causeOf .unknownOpcode).code = 1 ∧ (causeOf .truncatedInstruction).code = 2 ∧
    (causeOf .malformedField).code = 3 ∧ ∀ e : DecodeError, causeOf e ≠ .none

/-- The machine is the spec's pseudocode: in every state with `STATUS = RUN` and the cursor inside the image or at its
end, the step gives the state that `Step()` of 40_dispatch_and_step.md section 1 gives, with its fetches, its five
functions and its fault entry (files 20, 30, 40 to 45, 60). -/
def Obligations.StepIsThePseudocode : Prop :=
  ∀ s : State, s.status = .run → s.cur ≤ s.len → step s = .next (pseudoStep s)

/-! ## Reset, invariants, whole calls -/

/-- The state invariant holds after reset (10_state.md section 7; the values of the launch parameters there are the
model's, logs 1 and 2). -/
def Obligations.ResetInvariant : Prop := State.reset.Inv

/-- The start of a call (10_state.md section 6, 70_reset_and_hazards.md section 1), for every image, sink content and
`IMM_REG_CHECK`: the five elements take their reset values (`FPC`, which is unspecified, left out), the image is what the
block will read from index 0 on, and the invariant holds. -/
def Obligations.StartOfCall : Prop :=
  ∀ (check : Bool) (image : List Byte) (out0 : Text),
    let s := State.start check image out0
    s.cur = 0 ∧ s.out = out0 ∧ s.status = .run ∧ s.cause = .none ∧
    s.out0 = out0 ∧ s.len = image.length ∧ s.immRegCheck = check ∧ s.stream = image ∧
    (∀ k : Nat, k < image.length → image[k]? = some (s.imem.read k)) ∧ s.Inv

/-- Every step keeps the state invariant (10_state.md section 7), from every state that has it. -/
def Obligations.StepKeepsInvariant : Prop :=
  ∀ s t : State, s.Inv → step s = .next t → t.Inv

/-- Every step keeps this: the bytes before the cursor are the encodings of well-formed instructions, and the sink is
`OUT0` and then their lines, in order (10_state.md section 3, 40_dispatch_and_step.md sections 3, 4). -/
def Obligations.StepKeepsListing : Prop :=
  ∀ s t : State, s.Listed → step s = .next t → t.Listed

/-- In a state whose sink is a listing, the newlines beyond those of `OUT0` are as many as the instructions decoded, whose
lengths add up to the cursor (40_dispatch_and_step.md section 4). -/
def Obligations.NewlinesCountInstructions : Prop :=
  ∀ s : State, s.Listed → ∃ is : List Instr,
    s.imem.bytes 0 s.cur = is.flatMap encode ∧ (is.map Instr.length).sum = s.cur ∧
      s.out.count '\n' = s.out0.count '\n' + is.length

/-- A call cannot hang: from every state of a call in progress, after at most half as many steps as bytes are left, and
one, it is in `DONE` or `FAULT` (40_dispatch_and_step.md section 3). -/
def Obligations.EveryCallEnds : Prop :=
  ∀ s : State, s.status = .run → s.cur ≤ s.len →
    ∃ k t, k ≤ (s.len - s.cur) / 2 + 1 ∧ runSteps k s = .next t ∧ (t.status = .done ∨ t.status = .fault)

/-- The whole call as a function (40_dispatch_and_step.md section 3): from every state of a call in progress, the run ends
in the state that a scan of the bytes ahead gives: all their lines, and `DONE` at the end or `FAULT` at the first error. -/
def Obligations.CallIsTheScan : Prop :=
  ∀ s : State, s.status = .run → s.cur ≤ s.len →
    let r := scan s.immRegCheck (s.len - s.cur) s.stream
    runSteps (r.count + 1) s = .next (s.endOf r)

/-- The listing of well-formed code (40_dispatch_and_step.md section 3, 95_test_vectors.md P6): wherever the bytes ahead
of the cursor begin with the encodings of well-formed instructions, as many steps list them all, and the cursor stands
after them, at the end or before whatever follows. -/
def Obligations.WellFormedCodeIsListed : Prop :=
  ∀ (s : State) (is : List Instr) (rest : List Byte), s.status = .run → s.cur ≤ s.len →
    (∀ i ∈ is, i.wf s.immRegCheck = true) → s.stream = is.flatMap encode ++ rest →
    runSteps is.length s = .next { s with
      cur := s.len - rest.length
      out := s.out ++ is.flatMap instrLine }
end

