-- ==== Sys2Proof/Laws/Decode.lean ====
section
/-! SUPPORT. What fetching and decoding can answer: each function said once, so that later proofs do not unfold it. -/

namespace Sys2Proof

/-! ## Readers one after another -/

/-- Two readers in a row answer when both do. -/
theorem bind_eq_ok {ε α β : Type} {x : Except ε α} {f : α → Except ε β} {y : β} :
    (x >>= f) = .ok y ↔ ∃ a, x = .ok a ∧ f a = .ok y := by cases x <;> simp [bind, Except.bind]

/-- Two readers in a row fail when the first does, or the second does after it. -/
theorem bind_eq_error {ε α β : Type} {x : Except ε α} {f : α → Except ε β} {e : ε} :
    (x >>= f) = .error e ↔ x = .error e ∨ ∃ a, x = .ok a ∧ f a = .error e := by cases x <;> simp [bind, Except.bind]

/-! ## Fetching -/

@[simp] theorem fetch8_nil : fetch8 [] = .error .truncatedInstruction := rfl

@[simp] theorem fetch8_cons (b : Byte) (bs : List Byte) : fetch8 (b :: bs) = .ok (b, bs) := rfl

@[simp] theorem fetch16_nil : fetch16 [] = .error .truncatedInstruction := rfl

@[simp] theorem fetch16_single (b : Byte) : fetch16 [b] = .error .truncatedInstruction := rfl

@[simp] theorem fetch16_pair (lo hi : Byte) (bs : List Byte) : fetch16 (lo :: hi :: bs) = .ok (hi ++ lo, bs) := rfl

/-- The value of a two-byte field is `hi * 256 + lo` (R32). -/
theorem pair_toNat (lo hi : Byte) : (hi ++ lo : Word16).toNat = hi.toNat * 256 + lo.toNat := by
  rw [BitVec.toNat_append, Nat.shiftLeft_eq, Nat.mul_comm, ← Nat.two_pow_add_eq_or_of_lt lo.isLt]

@[simp] theorem wordBytes_pair (lo hi : Byte) : wordBytes (hi ++ lo : Word16) = [lo, hi] := by
  have hlo := lo.isLt
  have hhi := hi.isLt
  simp only [wordBytes, List.cons.injEq, and_true]
  constructor <;> apply BitVec.eq_of_toNat_eq <;>
    simp only [BitVec.extractLsb'_toNat, pair_toNat, Nat.shiftRight_eq_div_pow] <;> omega

@[simp] theorem fetch16_wordBytes (u : Word16) (bs : List Byte) : fetch16 (wordBytes u ++ bs) = .ok (u, bs) := by
  have hu := u.isLt
  simp only [wordBytes, List.cons_append, List.nil_append, fetch16_pair, Except.ok.injEq, Prod.mk.injEq, and_true]
  apply BitVec.eq_of_toNat_eq
  simp only [pair_toNat, BitVec.extractLsb'_toNat, Nat.shiftRight_eq_div_pow]
  omega

@[simp] theorem length_wordBytes (u : Word16) : (wordBytes u).length = 2 := rfl

theorem fetch8_ok {bs rest : List Byte} {b : Byte} : fetch8 bs = .ok (b, rest) ↔ bs = b :: rest := by
  cases bs <;> simp

theorem fetch16_ok {bs rest : List Byte} {u : Word16} : fetch16 bs = .ok (u, rest) ↔ bs = wordBytes u ++ rest := by
  constructor
  · match bs with
    | [] => simp
    | [_] => simp
    | lo :: hi :: bs =>
      simp only [fetch16_pair, Except.ok.injEq, Prod.mk.injEq]
      rintro ⟨rfl, rfl⟩
      simp
  · rintro rfl
    simp

/-- A fetch that fails is a truncation: too few bytes were left (R31). -/
theorem fetch8_error {bs : List Byte} {e : DecodeError} :
    fetch8 bs = .error e ↔ e = .truncatedInstruction ∧ bs.length < 1 := by
  cases bs <;> simp [eq_comm]

theorem fetch16_error {bs : List Byte} {e : DecodeError} :
    fetch16 bs = .error e ↔ e = .truncatedInstruction ∧ bs.length < 2 := by
  match bs with
  | [] => simp [eq_comm]
  | [_] => simp [eq_comm]
  | _ :: _ :: _ => simp

/-! ## Fields -/

/-- The fields of a mode byte are those it is made of (R54). -/
theorem fields_append : ∀ (mod : BitVec 2) (reg rm : Field3),
    modField (mod ++ reg ++ rm : Byte) = mod ∧ regField (mod ++ reg ++ rm : Byte) = reg ∧
      rmField (mod ++ reg ++ rm : Byte) = rm := by decide +kernel

@[simp] theorem modField_modeByte (reg : Field3) (rm : RegMem) : modField (modeByte reg rm) = rm.modBits :=
  (fields_append _ _ _).1

@[simp] theorem regField_modeByte (reg : Field3) (rm : RegMem) : regField (modeByte reg rm) = reg :=
  (fields_append _ _ _).2.1

@[simp] theorem rmField_modeByte (reg : Field3) (rm : RegMem) : rmField (modeByte reg rm) = rm.rmBits :=
  (fields_append _ _ _).2.2

/-- A mode byte is made of its fields (R54). -/
theorem append_fields : ∀ m : Byte, (modField m ++ regField m ++ rmField m : Byte) = m := by decide +kernel

/-! ## Operands -/

/-- What the operand decoder takes is the operand's displacement or address bytes, and the operand has the bits it was
asked for (R55, R56). -/
theorem decodeRegMem_ok {mod : BitVec 2} {rm : Field3} {bs rest : List Byte} {x : RegMem} :
    decodeRegMem mod rm bs = .ok (x, rest) ↔
      bs = x.dispBytes ++ rest ∧ x.modBits = mod ∧ x.rmBits = rm ∧ x.wf = true := by
  constructor
  · unfold decodeRegMem
    intro h
    split at h
    · simp_all only [Except.ok.injEq, Prod.mk.injEq]
      obtain ⟨rfl, rfl⟩ := h
      simp [RegMem.dispBytes, RegMem.modBits, RegMem.rmBits, RegMem.wf]
    · split at h
      · split at h
        · cases hf : fetch16 bs with
          | error e => rw [hf] at h; simp [bind, Except.bind] at h
          | ok p =>
            obtain ⟨a, bs'⟩ := p
            rw [hf] at h
            simp only [bind, Except.bind, pure, Except.pure, Except.ok.injEq, Prod.mk.injEq] at h
            obtain ⟨rfl, rfl⟩ := h
            simp_all [RegMem.dispBytes, RegMem.modBits, RegMem.rmBits, RegMem.wf, fetch16_ok]
        · simp_all only [Except.ok.injEq, Prod.mk.injEq]
          obtain ⟨rfl, rfl⟩ := h
          simp_all [RegMem.dispBytes, RegMem.modBits, RegMem.rmBits, RegMem.wf]
      · split at h
        · cases hf : fetch8 bs with
          | error e => rw [hf] at h; simp [bind, Except.bind] at h
          | ok p =>
            obtain ⟨a, bs'⟩ := p
            rw [hf] at h
            simp only [bind, Except.bind, pure, Except.pure, Except.ok.injEq, Prod.mk.injEq] at h
            obtain ⟨rfl, rfl⟩ := h
            simp_all [RegMem.dispBytes, RegMem.modBits, RegMem.rmBits, RegMem.wf, fetch8_ok]
        · cases hf : fetch16 bs with
          | error e => rw [hf] at h; simp [bind, Except.bind] at h
          | ok p =>
            obtain ⟨a, bs'⟩ := p
            rw [hf] at h
            simp only [bind, Except.bind, pure, Except.pure, Except.ok.injEq, Prod.mk.injEq] at h
            obtain ⟨rfl, rfl⟩ := h
            have hm : mod = 0b10#2 := by
              have : ∀ m : BitVec 2, m ≠ 0b11#2 → m ≠ 0b00#2 → m ≠ 0b01#2 → m = 0b10#2 := by decide
              exact this mod ‹_› ‹_› ‹_›
            simp_all [RegMem.dispBytes, RegMem.modBits, RegMem.rmBits, RegMem.wf, fetch16_ok]
  · rintro ⟨rfl, rfl, rfl, hw⟩
    cases x <;>
      simp_all [decodeRegMem, RegMem.dispBytes, RegMem.modBits, RegMem.rmBits, RegMem.wf, bind, Except.bind, pure,
        Except.pure]

@[simp] theorem length_dispBytes (x : RegMem) : x.dispBytes.length = x.dispLen := by cases x <;> rfl

/-- What the immediate reader takes is the immediate's bytes (R57). -/
theorem decodeImm_ok {w : Width} {bs rest : List Byte} {x : Imm} :
    decodeImm w bs = .ok (x, rest) ↔ bs = x.bytes ++ rest ∧ x.width = w := by
  constructor
  · intro h
    cases w
    · cases hf : fetch8 bs with
      | error e => simp [decodeImm, hf, bind, Except.bind] at h
      | ok p =>
        obtain ⟨v, bs'⟩ := p
        simp only [decodeImm, hf, bind, Except.bind, pure, Except.pure, Except.ok.injEq, Prod.mk.injEq] at h
        obtain ⟨rfl, rfl⟩ := h
        simp_all [Imm.bytes, Imm.width, fetch8_ok]
    · cases hf : fetch16 bs with
      | error e => simp [decodeImm, hf, bind, Except.bind] at h
      | ok p =>
        obtain ⟨v, bs'⟩ := p
        simp only [decodeImm, hf, bind, Except.bind, pure, Except.pure, Except.ok.injEq, Prod.mk.injEq] at h
        obtain ⟨rfl, rfl⟩ := h
        simp_all [Imm.bytes, Imm.width, fetch16_ok]
  · rintro ⟨rfl, rfl⟩
    cases x <;> simp [decodeImm, Imm.bytes, Imm.width, bind, Except.bind, pure, Except.pure]

@[simp] theorem length_immBytes (x : Imm) : x.bytes.length = x.byteLen := by cases x <;> rfl

/-! ## The decoder, by its first byte -/

@[simp] theorem decode_nil (check : Bool) : decode check [] = .error .truncatedInstruction := rfl

theorem decode_unknown {b : Byte} (h : variantOf b = none) (check : Bool) (bs : List Byte) :
    decode check (b :: bs) = .error .unknownOpcode := by simp only [decode, h]

theorem decode_rmReg {b : Byte} (h : variantOf b = some .rmReg) (check : Bool) (bs : List Byte) :
    decode check (b :: bs) = decodeMovRegMemReg b bs := by simp only [decode, h]

theorem decode_immRm {b : Byte} (h : variantOf b = some .immRm) (check : Bool) (bs : List Byte) :
    decode check (b :: bs) = decodeMovImmRegMem check b bs := by simp only [decode, h]

theorem decode_immReg {b : Byte} (h : variantOf b = some .immReg) (check : Bool) (bs : List Byte) :
    decode check (b :: bs) = decodeMovImmReg b bs := by simp only [decode, h]

theorem decode_memAcc {b : Byte} (h : variantOf b = some .memAcc) (check : Bool) (bs : List Byte) :
    decode check (b :: bs) = decodeMovMemAcc b bs := by simp only [decode, h]

theorem decode_accMem {b : Byte} (h : variantOf b = some .accMem) (check : Bool) (bs : List Byte) :
    decode check (b :: bs) = decodeMovAccMem b bs := by simp only [decode, h]

/-! ## First bytes -/

theorem width_bit : ∀ c : Bool, (Width.ofBit c).bit = BitVec.ofBool c := by decide

theorem dir_bit : ∀ c : Bool, (Dir.ofBit c).bit = BitVec.ofBool c := by decide

/-- The first byte of each variant is its pattern and its operand bits (R52, R53). -/
theorem firstByte_of_variant : ∀ b : Byte,
    (variantOf b = some .rmReg → b = (0b100010#6 ++ BitVec.ofBool (b.getLsbD 1) ++ BitVec.ofBool (b.getLsbD 0) : Byte)) ∧
    (variantOf b = some .immRm → b = (0b1100011#7 ++ BitVec.ofBool (b.getLsbD 0) : Byte)) ∧
    (variantOf b = some .immReg → b = (0b1011#4 ++ BitVec.ofBool (b.getLsbD 3) ++ rmField b : Byte)) ∧
    (variantOf b = some .memAcc → b = (0b1010000#7 ++ BitVec.ofBool (b.getLsbD 0) : Byte)) ∧
    (variantOf b = some .accMem → b = (0b1010001#7 ++ BitVec.ofBool (b.getLsbD 0) : Byte)) := by decide +kernel

end Sys2Proof
end

