-- ==== Sys2Proof/Laws/Operands.lean ====
section
/-! SUPPORT. Small facts of the rendering functions. -/

namespace Sys2Proof.Machine

/-- Any fuel above the number gives the same digits. -/
theorem decDigits_fuel {fuel n : Nat} (h : n < fuel) : decDigits fuel n = decNat n := by
  have key : ∀ (f g n : Nat), n < f → n < g → decDigits f n = decDigits g n := by
    intro f
    induction f with
    | zero => intro g n h; omega
    | succ f ih =>
      intro g n _ hg
      cases g with
      | zero => omega
      | succ g =>
        unfold decDigits
        split
        · rfl
        · rw [ih g (n / 10) (by omega) (by omega)]
  exact key fuel (n + 1) n h (Nat.lt_succ_self n)

@[simp] theorem dec_natCast (n : Nat) : dec (n : Int) = decNat n := rfl

@[simp] theorem immValue_byte (v : Byte) : immValue (.byte v) = sext16 v := rfl

@[simp] theorem immValue_word (u : Word16) : immValue (.word u) = signed16 u := rfl

@[simp] theorem rmText_reg (w : Width) (r : Field3) : rmText w (.reg r) = regName r w := rfl

@[simp] theorem rmText_direct (w : Width) (a : Word16) : rmText w (.direct a) = addrText a := rfl

@[simp] theorem rmText_base (w : Width) (r : Field3) : rmText w (.base r) = bracketed (baseText r) := rfl

@[simp] theorem rmText_disp8 (w : Width) (r : Field3) (v : Byte) :
    rmText w (.disp8 r v) = bracketed (baseText r ++ dispText (sext16 v)) := rfl

@[simp] theorem rmText_disp16 (w : Width) (r : Field3) (u : Word16) :
    rmText w (.disp16 r u) = bracketed (baseText r ++ dispText (signed16 u)) := rfl

end Sys2Proof.Machine
end

