-- ==== Sys2Proof/Laws/PerInstr.lean ====
section
/-! SUPPORT. Statements about every instruction as syntax, one lemma for each constructor. -/

namespace Sys2Proof.Laws

/-- The encoder writes as many bytes as R60 says, and that is 2 to 6. -/
def EncodedLength.Statement (i : Instr) : Prop :=
  (encode i).length = i.length ∧ 2 ≤ i.length ∧ i.length ≤ 6

theorem dispLen_le (rm : RegMem) : rm.dispLen ≤ 2 := by cases rm <;> simp [RegMem.dispLen]

theorem byteLen_bounds (imm : Imm) : 1 ≤ imm.byteLen ∧ imm.byteLen ≤ 2 := by cases imm <;> simp [Imm.byteLen]

theorem EncodedLength.movRegMemReg (d : Dir) (w : Width) (reg : Field3) (rm : RegMem) :
    EncodedLength.Statement (.movRegMemReg d w reg rm) := by
  have := dispLen_le rm
  simp only [EncodedLength.Statement, encode, Instr.length, List.length_cons, length_dispBytes]
  omega

theorem EncodedLength.movImmRegMem (reg : Field3) (rm : RegMem) (imm : Imm) :
    EncodedLength.Statement (.movImmRegMem reg rm imm) := by
  have := dispLen_le rm
  have := byteLen_bounds imm
  simp only [EncodedLength.Statement, encode, Instr.length, List.length_cons, List.length_append, length_dispBytes,
    length_immBytes]
  omega

theorem EncodedLength.movImmReg (reg : Field3) (imm : Imm) : EncodedLength.Statement (.movImmReg reg imm) := by
  have := byteLen_bounds imm
  simp only [EncodedLength.Statement, encode, Instr.length, List.length_cons, length_immBytes]
  omega

theorem EncodedLength.movMemAcc (w : Width) (addr : Word16) : EncodedLength.Statement (.movMemAcc w addr) := by
  simp [EncodedLength.Statement, encode, Instr.length]

theorem EncodedLength.movAccMem (w : Width) (addr : Word16) : EncodedLength.Statement (.movAccMem w addr) := by
  simp [EncodedLength.Statement, encode, Instr.length]

end Sys2Proof.Laws
end

