-- ==== Sys2Proof/Laws/State.lean ====
section
/-! SUPPORT. What each state operation does to each field, one lemma for each field of each operation. -/

namespace Sys2Proof.Machine

@[simp] theorem emit_imem (t : Text) (s : State) : (s.emit t).imem = s.imem := rfl
@[simp] theorem emit_len (t : Text) (s : State) : (s.emit t).len = s.len := rfl
@[simp] theorem emit_out0 (t : Text) (s : State) : (s.emit t).out0 = s.out0 := rfl
@[simp] theorem emit_immRegCheck (t : Text) (s : State) : (s.emit t).immRegCheck = s.immRegCheck := rfl
@[simp] theorem emit_cur (t : Text) (s : State) : (s.emit t).cur = s.cur := rfl
@[simp] theorem emit_out (t : Text) (s : State) : (s.emit t).out = s.out ++ t := rfl
@[simp] theorem emit_status (t : Text) (s : State) : (s.emit t).status = s.status := rfl
@[simp] theorem emit_cause (t : Text) (s : State) : (s.emit t).cause = s.cause := rfl
@[simp] theorem emit_fpc (t : Text) (s : State) : (s.emit t).fpc = s.fpc := rfl

@[simp] theorem advance_imem (n : Nat) (s : State) : (s.advance n).imem = s.imem := rfl
@[simp] theorem advance_len (n : Nat) (s : State) : (s.advance n).len = s.len := rfl
@[simp] theorem advance_out0 (n : Nat) (s : State) : (s.advance n).out0 = s.out0 := rfl
@[simp] theorem advance_immRegCheck (n : Nat) (s : State) : (s.advance n).immRegCheck = s.immRegCheck := rfl
@[simp] theorem advance_cur (n : Nat) (s : State) : (s.advance n).cur = s.cur + n := rfl
@[simp] theorem advance_out (n : Nat) (s : State) : (s.advance n).out = s.out := rfl
@[simp] theorem advance_status (n : Nat) (s : State) : (s.advance n).status = s.status := rfl
@[simp] theorem advance_cause (n : Nat) (s : State) : (s.advance n).cause = s.cause := rfl
@[simp] theorem advance_fpc (n : Nat) (s : State) : (s.advance n).fpc = s.fpc := rfl

@[simp] theorem commit_imem (t : Text) (n : Nat) (s : State) : (s.commit t n).imem = s.imem := rfl
@[simp] theorem commit_len (t : Text) (n : Nat) (s : State) : (s.commit t n).len = s.len := rfl
@[simp] theorem commit_out0 (t : Text) (n : Nat) (s : State) : (s.commit t n).out0 = s.out0 := rfl
@[simp] theorem commit_immRegCheck (t : Text) (n : Nat) (s : State) : (s.commit t n).immRegCheck = s.immRegCheck := rfl
@[simp] theorem commit_cur (t : Text) (n : Nat) (s : State) : (s.commit t n).cur = s.cur + n := rfl
@[simp] theorem commit_out (t : Text) (n : Nat) (s : State) : (s.commit t n).out = s.out ++ t := rfl
@[simp] theorem commit_status (t : Text) (n : Nat) (s : State) : (s.commit t n).status = s.status := rfl
@[simp] theorem commit_cause (t : Text) (n : Nat) (s : State) : (s.commit t n).cause = s.cause := rfl
@[simp] theorem commit_fpc (t : Text) (n : Nat) (s : State) : (s.commit t n).fpc = s.fpc := rfl

@[simp] theorem takeFault_imem (e : DecodeError) (ipc : Nat) (s : State) : (s.takeFault e ipc).imem = s.imem := rfl
@[simp] theorem takeFault_len (e : DecodeError) (ipc : Nat) (s : State) : (s.takeFault e ipc).len = s.len := rfl
@[simp] theorem takeFault_out0 (e : DecodeError) (ipc : Nat) (s : State) : (s.takeFault e ipc).out0 = s.out0 := rfl
@[simp] theorem takeFault_immRegCheck (e : DecodeError) (ipc : Nat) (s : State) : (s.takeFault e ipc).immRegCheck = s.immRegCheck := rfl
@[simp] theorem takeFault_cur (e : DecodeError) (ipc : Nat) (s : State) : (s.takeFault e ipc).cur = ipc := rfl
@[simp] theorem takeFault_out (e : DecodeError) (ipc : Nat) (s : State) : (s.takeFault e ipc).out = s.out := rfl
@[simp] theorem takeFault_status (e : DecodeError) (ipc : Nat) (s : State) : (s.takeFault e ipc).status = .fault := rfl
@[simp] theorem takeFault_cause (e : DecodeError) (ipc : Nat) (s : State) : (s.takeFault e ipc).cause = causeOf e := rfl
@[simp] theorem takeFault_fpc (e : DecodeError) (ipc : Nat) (s : State) : (s.takeFault e ipc).fpc = ipc := rfl

@[simp] theorem finish_imem (s : State) : s.finish.imem = s.imem := rfl
@[simp] theorem finish_len (s : State) : s.finish.len = s.len := rfl
@[simp] theorem finish_out0 (s : State) : s.finish.out0 = s.out0 := rfl
@[simp] theorem finish_immRegCheck (s : State) : s.finish.immRegCheck = s.immRegCheck := rfl
@[simp] theorem finish_cur (s : State) : s.finish.cur = s.cur := rfl
@[simp] theorem finish_out (s : State) : s.finish.out = s.out := rfl
@[simp] theorem finish_status (s : State) : s.finish.status = .done := rfl
@[simp] theorem finish_cause (s : State) : s.finish.cause = s.cause := rfl
@[simp] theorem finish_fpc (s : State) : s.finish.fpc = s.fpc := rfl

end Sys2Proof.Machine
end

