-- ==== Sys2Proof/Laws/Step.lean ====
section
/-! SUPPORT. Everything a meaning and a step can answer, said once. -/

namespace Sys2Proof.Machine

/-- A meaning that gives a next state has committed its line and length, or is variant 2 with a rejected `reg` field and
has taken `MalformedField`. -/
theorem exec_next_cases {i : Instr} {s t : State} (h : exec i s = .next t) :
    (∃ line, t = s.commit line i.length) ∨
      (∃ reg rm imm, i = .movImmRegMem reg rm imm ∧ regFieldRejected s.immRegCheck reg = true) ∧
        t = s.takeFault .malformedField s.cur := by
  cases i with
  | movRegMemReg d w reg rm => cases h; exact .inl ⟨_, rfl⟩
  | movImmRegMem reg rm imm =>
    simp only [exec, execMovImmRegMem] at h
    split at h
    · cases h; exact .inr ⟨⟨reg, rm, imm, rfl, ‹_›⟩, rfl⟩
    · cases h; exact .inl ⟨_, rfl⟩
  | movImmReg reg imm => cases h; exact .inl ⟨_, rfl⟩
  | movMemAcc w a => cases h; exact .inl ⟨_, rfl⟩
  | movAccMem w a => cases h; exact .inl ⟨_, rfl⟩

/-- No meaning stops: every one gives a next state. -/
theorem exec_is_next (i : Instr) (s : State) : ∃ t, exec i s = .next t := by
  cases i with
  | movImmRegMem reg rm imm => simp only [exec, execMovImmRegMem]; split <;> exact ⟨_, rfl⟩
  | _ => exact ⟨_, rfl⟩

/-- Everything a step that gives a next state can have done: end the call, take a fault, or run an instruction. -/
theorem step_next_cases {s t : State} (h : step s = .next t) :
    s.status = .run ∧
      ((s.cur = s.len ∧ t = s.finish) ∨
        (s.cur < s.len ∧ ∃ e, s.decodeAtCursor = .error e ∧ t = s.takeFault e s.cur) ∨
        (s.cur < s.len ∧ ∃ i rest, s.decodeAtCursor = .ok (i, rest) ∧ exec i s = .next t)) := by
  unfold step at h
  split at h
  · cases h
  · cases h
  · refine ⟨‹_›, ?_⟩
    split at h
    · cases h; exact .inl ⟨‹_›, rfl⟩
    · split at h
      · cases h
      · have hlt : s.cur < s.len := by omega
        split at h
        · cases h; exact .inr (.inl ⟨hlt, _, ‹_›, rfl⟩)
        · exact .inr (.inr ⟨hlt, _, _, ‹_›, h⟩)

/-- In `RUN` with bytes ahead, a step is the decoded instruction's meaning or the fault entry. -/
theorem step_of_run {s : State} (hr : s.status = .run) (hc : s.cur < s.len) :
    step s = match s.decodeAtCursor with
      | .error e => .next (s.takeFault e s.cur)
      | .ok (i, _) => exec i s := by
  have h1 : ¬s.cur = s.len := by omega
  have h2 : ¬s.len < s.cur := by omega
  simp only [step, hr, h1, h2, if_false] <;> rfl

/-! ## Runs -/

@[simp] theorem runSteps_zero (s : State) : runSteps 0 s = .next s := rfl

/-- A run goes on from the state its first step gives. -/
theorem runSteps_succ {s t : State} (h : step s = .next t) (n : Nat) : runSteps (n + 1) s = runSteps n t := by
  simp only [runSteps, h]

/-- `Host.Core.run` by what its first step answers, for any machine. -/
theorem host_run_succ (M : Host.Core) (n : Nat) (s : M.State) :
    (∀ t, M.step s = .next t → M.run (n + 1) s = M.run n t) ∧
    (∀ r, M.step s = .fault r → M.run (n + 1) s = .fault r) ∧
    (∀ r, M.step s = .refused r → M.run (n + 1) s = .refused r) := by
  have e : M.run (n + 1) s = match M.step s with
    | .next t => M.run n t
    | .fault r => .fault r
    | .refused r => .refused r := rfl
  refine ⟨fun t h => ?_, fun r h => ?_, fun r h => ?_⟩ <;> rw [e, h]

/-- A run is the host's run of this machine. -/
theorem core_run (n : Nat) (s : State) : Sys2Proof.core.run n s = runSteps n s := by
  induction n generalizing s with
  | zero => rfl
  | succ n ih =>
    obtain ⟨h1, h2, h3⟩ := host_run_succ Sys2Proof.core n s
    cases h : step s with
    | next t => rw [runSteps_succ h, ← ih t]; exact h1 t h
    | fault r => simp only [runSteps, h]; exact h2 r h
    | refused r => simp only [runSteps, h]; exact h3 r h

end Sys2Proof.Machine
end

