-- ==== Sys2Proof/Tests/Slice0.lean ====
section
/-! SUPPORT. Small tests, each on one step or one decoding, with results taken from the spec, and a witness for the
hypotheses of every statement that has some. -/

namespace Sys2Proof.Tests

open Sys2Proof.Machine

/-! ## Helpers -/

/-- The state at the start of a call on an image, with an empty sink. -/
def sample (check : Bool) (image : List Byte) : State := State.start check image []

/-- What one step from the start of a call leaves: the sink, the cursor, `STATUS`, the code of `CAUSE`, and `FPC`. -/
def after (check : Bool) (image : List Byte) : Option (Text × Nat × Status × Nat × Nat) :=
  match step (sample check image) with
  | .next t => some (t.out, t.cur, t.status, t.cause.code, t.fpc)
  | _ => none

/-- A committed line of `n` bytes. -/
def line (t : String) (n : Nat) : Option (Text × Nat × Status × Nat × Nat) := some (t.toList ++ ['\n'], n, .run, 0, 0)

/-- A fault at index 0 with this code. -/
def faulted (code : Nat) : Option (Text × Nat × Status × Nat × Nat) := some ([], 0, .fault, code, 0)

/-! ## Well-formedness refuses what it should (R63, R134) -/

theorem test_wf_refuses_base_110 : (Instr.movRegMemReg .regIsDest .word 0 (.base 0b110#3)).wf false = false := by decide

theorem test_wf_refuses_base_110_immediate : (Instr.movImmRegMem 0 (.base 0b110#3) (.byte 0)).wf false = false := by
  decide

theorem test_wf_refuses_reg_field : (Instr.movImmRegMem 0b001#3 (.reg 0) (.byte 0)).wf true = false := by decide

theorem test_wf_allows_reg_field_unchecked : (Instr.movImmRegMem 0b001#3 (.reg 0) (.byte 0)).wf false = true := by
  decide

/-! ## Decoding, by words written out from the layouts of R53 and R54 -/

/-- `100010 d w` = `100010 0 0`, mode byte `mod reg r_m` = `11 100 101`. -/
theorem test_decode_movRegMemReg : decode true [0b10001000#8, 0b11100101#8] =
    .ok (.movRegMemReg .regIsSource .byte 0b100#3 (.reg 0b101#3), []) := by rfl

/-- `100010 1 1`, mode byte `00 011 110`: a direct address, low byte first (R33). -/
theorem test_decode_direct_address : decode true [0b10001011#8, 0b00011110#8, 0x0D#8, 0x82#8] =
    .ok (.movRegMemReg .regIsDest .word 0b011#3 (.direct 0x820D#16), []) := by rfl

/-- `1100011 w` = `1100011 1`, mode byte `10 000 101`, a displacement and then an immediate (R59). -/
theorem test_decode_movImmRegMem : decode true [0b11000111#8, 0b10000101#8, 0x85#8, 0x03#8, 0x5B#8, 0x01#8] =
    .ok (.movImmRegMem 0b000#3 (.disp16 0b101#3 0x0385#16) (.word 0x015B#16), []) := by rfl

/-- `1011 w reg` = `1011 0 001`: `w` is bit 3; the byte after the immediate is left (R122). -/
theorem test_decode_movImmReg : decode true [0b10110001#8, 0x0C#8, 0x89#8] =
    .ok (.movImmReg 0b001#3 (.byte 0x0C#8), [0x89#8]) := by rfl

/-- `1010000 w` = `1010000 0`: two address bytes when `w = 0` too (R153). -/
theorem test_decode_movMemAcc : decode true [0b10100000#8, 0x10#8, 0x00#8] = .ok (.movMemAcc .byte 0x0010#16, []) := by
  rfl

/-- `1010001 w` = `1010001 1`. -/
theorem test_decode_movAccMem : decode true [0b10100011#8, 0xFF#8, 0xFF#8] = .ok (.movAccMem .word 0xFFFF#16, []) := by
  rfl

/-- Neighbours of the recognised first bytes are refused (95_test_vectors.md section 6). -/
theorem test_decode_refuses_neighbours : [0x87#8, 0x8C#8, 0x9F#8, 0xA4#8, 0xAF#8, 0xC0#8, 0xC5#8, 0xC8#8].all
    (fun b => variantOf b == none) = true := by decide

/-- The host's table words: 8 bits of opcode, zeros after them. -/
theorem test_table_words :
    decodeTableWord 8 0x88 = some (.movRegMemReg .regIsSource .byte 0 (.base 0)) ∧
    decodeTableWord 8 0xC6 = some (.movImmRegMem 0 (.base 0) (.byte 0)) ∧
    decodeTableWord 8 0xB0 = some (.movImmReg 0 (.byte 0)) ∧
    decodeTableWord 8 0xA0 = some (.movMemAcc .byte 0) ∧
    decodeTableWord 8 0xA2 = some (.movAccMem .byte 0) := by decide

/-- The first step after reset runs the word put at the cursor. -/
theorem test_withFetchWord_runs : (match step (State.reset.withFetchWord 8 0xA3) with
    | .next t => some (t.out, t.cur, t.status)
    | _ => none) = some ("mov [0], ax\n".toList, 3, .run) := by decide

/-! ## One step, results from 95_test_vectors.md -/

/-- S1 and V3: `d` says which of `reg` and `r_m` is the destination. -/
theorem test_movRegMemReg_direction : after true [0x89#8, 0xD9#8] = line "mov cx, bx" 2 ∧
    after true [0x8A#8, 0xE5#8] = line "mov ah, ch" 2 := by decide

/-- V17 and V9: the most negative displacement, and an unsigned direct address. -/
theorem test_movRegMemReg_extremes : after true [0x8B#8, 0x94#8, 0x00#8, 0x80#8] = line "mov dx, [si - 32768]" 4 ∧
    after true [0x8B#8, 0x1E#8, 0x0D#8, 0x82#8] = line "mov bx, [33293]" 4 := by decide

/-- V39 and V31: displacement before immediate, and the qualifier of a register destination. -/
theorem test_movImmRegMem_forms :
    after true [0xC7#8, 0x82#8, 0x00#8, 0x80#8, 0x00#8, 0x80#8] = line "mov [bp + si - 32768], word -32768" 6 ∧
    after true [0xC6#8, 0xC1#8, 0x0C#8] = line "mov cl, byte 12" 3 := by decide

/-- V44 and V46: the `reg` field that is not `000`, with both values of `IMM_REG_CHECK`, and its priority. -/
theorem test_movImmRegMem_reg_field : after false [0xC6#8, 0x0B#8, 0x07#8] = line "mov [bp + di], byte 7" 3 ∧
    after true [0xC6#8, 0x0B#8, 0x07#8] = faulted 3 ∧ after false [0xC6#8, 0x3B#8] = faulted 2 ∧
    after true [0xC6#8, 0x3B#8] = faulted 3 := ⟨by decide, by decide, by decide, by decide⟩

/-- V53 and V62: immediates are signed. -/
theorem test_movImmReg_signed : after true [0xB0#8, 0xFF#8] = line "mov al, -1" 2 ∧
    after true [0xBF#8, 0x6C#8, 0xF0#8] = line "mov di, -3988" 3 := by decide

/-- V70 and V75: `al` when `w = 0`, and an unsigned address. -/
theorem test_movMemAcc : after true [0xA0#8, 0xFB#8, 0x09#8] = line "mov al, [2555]" 3 ∧
    after true [0xA1#8, 0x00#8, 0x80#8] = line "mov ax, [32768]" 3 := by decide

/-- V72 and V76. -/
theorem test_movAccMem : after true [0xA2#8, 0x0F#8, 0x00#8] = line "mov [15], al" 3 ∧
    after true [0xA3#8, 0xFF#8, 0xFF#8] = line "mov [65535], ax" 3 := by decide

/-- F1, F2, F9 and F13: the empty image, an unknown first byte, and two truncations. -/
theorem test_ends_and_faults : after true [] = some ([], 0, .done, 0, 0) ∧ after true [0x90#8] = faulted 1 ∧
    after true [0xC7#8, 0x86#8, 0x00#8, 0x01#8, 0x02#8] = faulted 2 ∧ after true [0xA1#8, 0xFB#8] = faulted 2 :=
  ⟨by decide, by decide, by decide, by decide⟩

/-! ## Witnesses: the hypotheses of each statement can be met -/

theorem witness_DecodeEncodeAgree :
    (Instr.movRegMemReg .regIsDest .word 0b111#3 (.direct 0xFFFF#16)).wf true = true ∧
    (Instr.movImmRegMem 0b000#3 (.disp16 0b110#3 0x8000#16) (.word 0xFFFF#16)).wf true = true ∧
    (Instr.movImmRegMem 0b111#3 (.base 0b111#3) (.byte 0x80#8)).wf false = true ∧
    (Instr.movImmReg 0b111#3 (.byte 0xFF#8)).wf true = true ∧ (Instr.movMemAcc .byte 0xFFFF#16).wf true = true ∧
    (Instr.movAccMem .word 0x0000#16).wf true = true := by decide

theorem witness_DecodedBytesAreTheEncoding : decode true [0xB1#8, 0x0C#8, 0x89#8] =
    .ok (.movImmReg 0b001#3 (.byte 0x0C#8), [0x89#8]) := by rfl

theorem witness_NoReadAhead : decode false [0xC7#8, 0x3E#8, 0xE8#8, 0x03#8, 0x01#8, 0x00#8, 0x90#8] =
    .ok (.movImmRegMem 0b111#3 (.direct 0x03E8#16) (.word 0x0001#16), [0x90#8]) := by rfl

theorem witness_DispatchOrderIrrelevant : descriptors.reverse.Perm descriptors := List.reverse_perm descriptors

/-- Both the shortest cut and the longest. -/
theorem witness_CutInstructionIsTruncated :
    (Instr.movImmRegMem 0 (.direct 0x03E8#16) (.word 1)).wf true = true ∧ 0 < 1 ∧ 1 < 6 ∧ 0 < 5 ∧ 5 < 6 ∧
      (Instr.movImmRegMem 0 (.direct 0x03E8#16) (.word 1)).length = 6 := by decide

theorem witness_RecognisedAndCompleteDecodes : variantOf 0xC7#8 ≠ none ∧ 4 ≤ [0x00#8, 0x00#8, 0x00#8, 0x00#8].length ∧
    (variantOf 0xC7#8 = some .immRm → true = true → regField 0x06#8 = 0b000#3) := by decide

/-- The two mode bytes differ in `reg` only; with them one run of bytes decodes and a shorter one does not. -/
theorem witness_RegFieldIgnoredWhenUnchecked : variantOf 0xC6#8 = some .immRm ∧ modField 0x03#8 = modField 0x3B#8 ∧
    rmField 0x03#8 = rmField 0x3B#8 ∧
    decode false [0xC6#8, 0x03#8, 0x07#8] = .ok (.movImmRegMem 0b000#3 (.base 0b011#3) (.byte 0x07#8), []) ∧
    decode false [0xC6#8, 0x03#8] = .error .truncatedInstruction := ⟨rfl, rfl, rfl, rfl, rfl⟩

/-- A form that reads two bytes and has none, a form that reads one and has it, and one that reads none. -/
theorem witness_EffectiveAddress : 0b00#2 ≠ 0b11#2 ∧ ([] : List Byte).length < dispLenOf 0b00#2 0b110#3 ∧
    dispLenOf 0b01#2 0b110#3 ≤ [0xFF#8].length ∧ dispLenOf 0b00#2 0b111#3 ≤ ([] : List Byte).length := by decide

theorem witness_DisplacementText : (0 : Int) = 0 ∧ (0 : Int) < 1 ∧ (-32768 : Int) < 0 := by decide

theorem witness_DecimalEquations : (-1 : Int) < 0 ∧ 9 ≤ 9 ∧ 10 ≤ 10 := by decide

theorem witness_DecimalTextIsFaithful : dec 0 = dec (-0) ∧ (dec 0).head? = some '0' := by decide

theorem witness_SignExtension : (0x80#8).getLsbD 7 = true ∧ (0xFF#8).getLsbD 7 = true := by decide

theorem witness_MovImmRegMemCompletes : (sample false []).immRegCheck = false ∧ (sample true []).immRegCheck = true ∧
    (0b000#3 : Field3) = 0b000#3 := by decide

theorem witness_MovImmRegMemRejects : (sample true []).immRegCheck = true ∧ (0b111#3 : Field3) ≠ 0b000#3 := by decide

/-- A completion and a rejection. -/
theorem witness_InstructionFrame :
    (∃ t, exec (.movMemAcc .byte 0xFFFF#16) (sample true []) = .next t ∧ t.status = .run) ∧
    ∃ t, exec (.movImmRegMem 0b001#3 (.reg 0) (.byte 0)) (sample true []) = .next t ∧ t.status = .fault :=
  ⟨⟨_, rfl, rfl⟩, ⟨_, rfl, rfl⟩⟩

theorem witness_StepRunsDecodedInstruction : (sample true [0xB1#8, 0x0C#8]).status = .run ∧
    (sample true [0xB1#8, 0x0C#8]).cur < (sample true [0xB1#8, 0x0C#8]).len ∧
    decode (sample true [0xB1#8, 0x0C#8]).immRegCheck ((sample true [0xB1#8, 0x0C#8]).imem.bytes 0 2) =
      .ok (.movImmReg 0b001#3 (.byte 0x0C#8), []) := ⟨rfl, by decide, rfl⟩

theorem witness_StepExecutesInstructionAtCursor : (sample true [0xB1#8, 0x0C#8]).status = .run ∧
    (Instr.movImmReg 0b001#3 (.byte 0x0C#8)).wf true = true ∧
    0 + (encode (.movImmReg 0b001#3 (.byte 0x0C#8))).length ≤ (sample true [0xB1#8, 0x0C#8]).len ∧
    ∀ k, k < 2 → (encode (.movImmReg 0b001#3 (.byte 0x0C#8)))[k]? =
      some ((sample true [0xB1#8, 0x0C#8]).imem.read (0 + k)) := by decide

theorem witness_StepEndsAtEndOfStream : (sample true []).status = .run ∧ (sample true []).cur = (sample true []).len := by
  decide

theorem witness_NoStepAfterTheEnd : (sample true []).finish.status ≠ .run ∧ (sample true []).finish.status = .done ∧
    ((sample true []).takeFault .unknownOpcode 0).status = .fault := by decide

theorem witness_CursorPastTheEndStops : ((sample true []).advance 1).status = .run ∧
    ((sample true []).advance 1).len < ((sample true []).advance 1).cur := by decide

/-- The unknown bytes next to the recognised ones, with bytes of a good instruction after them. -/
theorem witness_UnknownOpcodeFaults : (sample true [0x8C#8, 0x89#8]).status = .run ∧
    (sample true [0x8C#8, 0x89#8]).cur < (sample true [0x8C#8, 0x89#8]).len ∧
    ∀ b ∈ [0x88#8, 0x89#8, 0x8A#8, 0x8B#8, 0xA0#8, 0xA1#8, 0xA2#8, 0xA3#8, 0xB0#8, 0xB1#8, 0xB2#8, 0xB3#8, 0xB4#8,
      0xB5#8, 0xB6#8, 0xB7#8, 0xB8#8, 0xB9#8, 0xBA#8, 0xBB#8, 0xBC#8, 0xBD#8, 0xBE#8, 0xBF#8, 0xC6#8, 0xC7#8],
      (sample true [0x8C#8, 0x89#8]).imem.read 0 ≠ b := by decide

/-- An instruction that ends exactly at the end of the stream, and one cut after its first byte. -/
theorem witness_MovRegMemRegStep :
    ((sample true [0x8B#8, 0x5E#8, 0x00#8]).imem.read 0 >>> 2 = 0b100010#8 ∧
      0 + (2 + dispLenOf (modField 0x5E#8) (rmField 0x5E#8)) ≤ (sample true [0x8B#8, 0x5E#8, 0x00#8]).len) ∧
    ((sample true [0x89#8]).imem.read 0 >>> 2 = 0b100010#8 ∧
      (sample true [0x89#8]).len < 0 + (2 + dispLenOf (modField 0x00#8) (rmField 0x00#8))) := by decide

/-- A rejected `reg` field at the end of the stream, a complete instruction, and one cut inside its immediate. -/
theorem witness_MovImmRegMemStep :
    ((sample true [0xC6#8, 0x3B#8]).imem.read 0 >>> 1 = 0b1100011#8 ∧ 0 + 2 ≤ (sample true [0xC6#8, 0x3B#8]).len ∧
      (sample true [0xC6#8, 0x3B#8]).immRegCheck = true ∧ regField 0x3B#8 ≠ 0b000#3) ∧
    ((sample true [0xC6#8, 0x03#8, 0x07#8]).imem.read 0 >>> 1 = 0b1100011#8 ∧ regField 0x03#8 = 0b000#3 ∧
      0 + 2 + dispLenOf (modField 0x03#8) (rmField 0x03#8) + 1 ≤ (sample true [0xC6#8, 0x03#8, 0x07#8]).len) ∧
    ((sample false [0xC7#8, 0x3B#8, 0x07#8]).imem.read 0 >>> 1 = 0b1100011#8 ∧
      (sample false [0xC7#8, 0x3B#8, 0x07#8]).immRegCheck = false ∧
      (sample false [0xC7#8, 0x3B#8, 0x07#8]).len < 0 + 2 + dispLenOf (modField 0x3B#8) (rmField 0x3B#8) + 2) := by
  decide

theorem witness_MovImmRegStep :
    ((sample true [0xB9#8, 0x0C#8, 0x00#8]).imem.read 0 >>> 4 = 0b1011#8 ∧ 0 + 3 ≤ (sample true [0xB9#8, 0x0C#8, 0]).len) ∧
    ((sample true [0xB1#8]).imem.read 0 >>> 4 = 0b1011#8 ∧ (sample true [0xB1#8]).len < 0 + 2) := by decide

theorem witness_MovMemAccStep :
    ((sample true [0xA1#8, 0xFB#8, 0x09#8]).imem.read 0 >>> 1 = 0b1010000#8 ∧
      0 + 3 ≤ (sample true [0xA1#8, 0xFB#8, 0x09#8]).len) ∧
    ((sample true [0xA0#8, 0xFB#8]).imem.read 0 >>> 1 = 0b1010000#8 ∧ (sample true [0xA0#8, 0xFB#8]).len < 0 + 3) := by
  decide

theorem witness_MovAccMemStep :
    ((sample true [0xA3#8, 0x0F#8, 0x00#8]).imem.read 0 >>> 1 = 0b1010001#8 ∧
      0 + 3 ≤ (sample true [0xA3#8, 0x0F#8, 0x00#8]).len) ∧
    ((sample true [0xA2#8]).imem.read 0 >>> 1 = 0b1010001#8 ∧ (sample true [0xA2#8]).len < 0 + 3) := by decide

/-- A step that decodes an instruction: the hypotheses of `CursorAdvances`, `OneLinePerInstruction`, `StepFrame`,
`StepKeepsInvariant` (with `witness_invariant`) and `StepKeepsListing` (with `witness_listing`). -/
theorem witness_step_decodes : ∃ t, step (sample true [0xB1#8, 0x0C#8]) = .next t ∧ t.status = .run := ⟨_, rfl, rfl⟩

/-- A step that takes a fault: the hypotheses of `FaultEntryIsPrecise`, and the other case of those above. -/
theorem witness_step_faults : ∃ t, step (sample true [0xB1#8]) = .next t ∧ t.status = .fault := ⟨_, rfl, rfl⟩

/-- The same instruction at two places, with other bytes around it. -/
theorem witness_LineDependsOnItsBytesOnly :
    let s := sample true [0xB1#8, 0x0C#8]
    let s' := (sample true [0x89#8, 0xD9#8, 0xB1#8, 0x0C#8, 0x90#8]).advance 2
    s.status = .run ∧ s'.status = .run ∧ s.immRegCheck = s'.immRegCheck ∧
      (∃ t, step s = .next t ∧ t.status = .run ∧ t.cur - s.cur = 2) ∧ s'.cur + 2 ≤ s'.len ∧
      ∀ k, k < 2 → s'.imem.read (s'.cur + k) = s.imem.read (s.cur + k) :=
  ⟨rfl, rfl, rfl, ⟨_, rfl, rfl, rfl⟩, by decide, by decide⟩

/-- A call in progress with bytes ahead, and one at the end: the hypotheses of `StepIsThePseudocode`, `EveryCallEnds` and
`CallIsTheScan`. -/
theorem witness_call_in_progress : (sample true [0x90#8]).status = .run ∧
    (sample true [0x90#8]).cur ≤ (sample true [0x90#8]).len ∧ (sample true []).status = .run ∧
    (sample true []).cur ≤ (sample true []).len := by decide

/-- The image has an index that can be read back: the hypothesis inside `StartOfCall`. -/
theorem witness_StartOfCall : 0 < [0x90#8].length := by decide

theorem witness_invariant : (sample true [0xB1#8, 0x0C#8]).Inv where
  memory_wf := by decide
  memory_below := by decide
  cur_le_len := by decide
  out0_kept := List.prefix_refl _
  done_at_end := fun h => absurd h (by decide)
  fault_named := fun h => absurd h (by decide)
  run_clean := fun _ => rfl

/-- A sink that is a listing of one instruction: the hypothesis of `NewlinesCountInstructions`. -/
theorem witness_listing : ((sample true [0xB1#8, 0x0C#8]).commit "mov cl, 12\n".toList 2).Listed :=
  ⟨[.movImmReg 0b001#3 (.byte 0x0C#8)], by decide, by decide, by decide⟩

/-- Two instructions and then a byte that is none. -/
theorem witness_WellFormedCodeIsListed :
    (∀ i ∈ [Instr.movImmReg 0b001#3 (.byte 0x0C#8), Instr.movAccMem .word 0x000F#16],
      i.wf (sample true []).immRegCheck = true) ∧
    (sample true [0xB1#8, 0x0C#8, 0xA3#8, 0x0F#8, 0x00#8, 0x90#8]).stream =
      [Instr.movImmReg 0b001#3 (.byte 0x0C#8), Instr.movAccMem .word 0x000F#16].flatMap encode ++ [0x90#8] := by decide

end Sys2Proof.Tests
end

/-! # The cursor, the start of a call and the register names (10_state.md R21 to R26) -/

namespace Sys2Proof.Machine

/-! ## Instruction lengths -/

/-- R60 for every instruction at once, from the lemma of each constructor. -/
theorem encodedLength_statement (i : Instr) : Laws.EncodedLength.Statement i := by
  cases i with
  | movRegMemReg d w reg rm => exact Laws.EncodedLength.movRegMemReg d w reg rm
  | movImmRegMem reg rm imm => exact Laws.EncodedLength.movImmRegMem reg rm imm
  | movImmReg reg imm => exact Laws.EncodedLength.movImmReg reg imm
  | movMemAcc w addr => exact Laws.EncodedLength.movMemAcc w addr
  | movAccMem w addr => exact Laws.EncodedLength.movAccMem w addr

/-! ## Steps that leave the call in progress -/

/-- A meaning that leaves `STATUS` at `RUN` has committed the instruction's line and length: the rejected `reg` field of
variant 2 ends in `FAULT`. -/
theorem exec_stays_run {i : Instr} {s t : State} (h : exec i s = .next t) (ht : t.status = .run) :
    t = s.commit (instrLine i) i.length := by
  cases i with
  | movRegMemReg d w reg rm => cases h; rfl
  | movImmRegMem reg rm imm =>
    simp only [exec, execMovImmRegMem] at h
    split at h
    · cases h; cases ht
    · cases h; rfl
  | movImmReg reg imm => cases h; rfl
  | movMemAcc w addr => cases h; rfl
  | movAccMem w addr => cases h; rfl

/-- A step that leaves `STATUS` at `RUN` has decoded an instruction and committed it: the end of the call and fault entry
leave `RUN`. -/
theorem step_stays_run {s t : State} (h : step s = .next t) (ht : t.status = .run) :
    s.status = .run ∧ s.cur < s.len ∧
      ∃ i rest, s.decodeAtCursor = .ok (i, rest) ∧ t = s.commit (instrLine i) i.length := by
  obtain ⟨hrun, ⟨-, rfl⟩ | ⟨-, e, -, rfl⟩ | ⟨hlt, i, rest, hd, hx⟩⟩ := step_next_cases h
  · cases ht
  · cases ht
  · exact ⟨hrun, hlt, i, rest, hd, exec_stays_run hx ht⟩

/-! ## The start of a call -/

/-- The invariant holds at the start of every call (R21, R26). -/
theorem State.start_inv (check : Bool) (image : List Byte) (out0 : Text) : (State.start check image out0).Inv where
  memory_wf := Memory.writeBytes_wf rfl 0 image
  memory_below := Memory.writeBytes_below rfl (Nat.zero_add image.length).le
  cur_le_len := Nat.zero_le image.length
  out0_kept := List.prefix_refl out0
  done_at_end := nofun
  fault_named := nofun
  run_clean := fun _ => rfl

/-- An image that holds one instruction of `n` bytes, for `n` from 2 to 6, written out from the layouts of R53 and R54. -/
def imageOfLength : Nat → List Byte
  | 2 => [0xB1#8, 0x0C#8]
  | 3 => [0xB9#8, 0x0C#8, 0x00#8]
  | 4 => [0x8B#8, 0x1E#8, 0x0D#8, 0x82#8]
  | 5 => [0xC6#8, 0x85#8, 0x85#8, 0x03#8, 0x07#8]
  | 6 => [0xC7#8, 0x85#8, 0x85#8, 0x03#8, 0x5B#8, 0x01#8]
  | _ => []

/-- The first step of a call on one of these images consumes all of it. -/
theorem step_start_imageOfLength {n : Nat} (hlo : 2 ≤ n) (hhi : n ≤ 6) :
    ∃ t, step (State.start true (imageOfLength n) []) = .next t ∧ t.status = .run ∧ t.cur = n := by
  interval_cases n <;> exact ⟨_, rfl, rfl, rfl⟩

/-- Settles O44: a step that stays in `RUN` has moved the cursor by the length of an instruction, and the first step on
`imageOfLength n` moves it by `n`. -/
theorem cursorAdvances : Obligations.CursorAdvances := by
  constructor
  · intro s t h ht
    obtain ⟨-, -, i, rest, -, rfl⟩ := step_stays_run h ht
    obtain ⟨-, hlo, hhi⟩ := encodedLength_statement i
    rw [commit_cur]
    omega
  · intro n hlo hhi
    obtain ⟨t, hstep, hrun, hcur⟩ := step_start_imageOfLength hlo hhi
    exact ⟨_, t, State.start_inv true (imageOfLength n) [], hstep, hrun, hcur.trans (Nat.zero_add n).symm⟩

/-! ## Register names -/

/-- Each of the eight byte registers of R130 has one of the sixteen names. -/
theorem regName_byte_mem : ∀ reg : Field3, ∃ name ∈ registerNames, regName reg .byte = name.toList := by decide

/-- Each of the eight word registers of R130 has one of the sixteen names. -/
theorem regName_word_mem : ∀ reg : Field3, ∃ name ∈ registerNames, regName reg .word = name.toList := by decide

/-- Settles O12, by the two halves of the register table. -/
theorem registerDecodeIsTotal : Obligations.RegisterDecodeIsTotal := by
  intro reg w
  cases w with
  | byte => exact regName_byte_mem reg
  | word => exact regName_word_mem reg

end Sys2Proof.Machine

/-! # What the decoder takes (20_memory.md R31 to R36) -/

namespace Sys2Proof

/-! ## The mode byte -/

/-- A byte is the mode byte of a `reg` field and an operand when it has their three fields (R54). -/
theorem eq_modeByte_iff {m : Byte} {reg : Field3} {rm : RegMem} :
    m = modeByte reg rm ↔ rm.modBits = modField m ∧ regField m = reg ∧ rm.rmBits = rmField m := by
  constructor
  · rintro rfl
    simp
  · rintro ⟨hmod, rfl, hrm⟩
    rw [modeByte, hmod, hrm, append_fields]

/-! ## Reading the last part of an instruction -/

/-- A reader whose value `f` completes answers when the reader does, and leaves what the reader leaves. -/
theorem read_then_eq_ok {ε α β : Type} {x : Except ε (α × List Byte)} {f : α → β} {y : β} {rest : List Byte} :
    (x >>= fun p => pure (f p.1, p.2)) = .ok (y, rest) ↔ ∃ a, y = f a ∧ x = .ok (a, rest) := by
  cases x with
  | error e => simp [bind, Except.bind]
  | ok p =>
    obtain ⟨a, bs⟩ := p
    simp [bind, Except.bind, pure, Except.pure, eq_comm]

/-! ## The must-be-`000` check (R63) -/

/-- A reader behind a check answers when the check lets it read and it answers. -/
theorem guarded_eq_ok {ε α : Type} {c : Prop} [Decidable c] {e : ε} {x : Except ε α} {y : α} :
    (if c then .error e else x) = .ok y ↔ ¬c ∧ x = .ok y := by
  split <;> simp [*]

/-- Variant 2 is well-formed when its operand is and its `reg` field is not rejected. -/
theorem wf_movImmRegMem {check : Bool} {reg : Field3} {rm : RegMem} {imm : Imm} :
    (Instr.movImmRegMem reg rm imm).wf check = true ↔ rm.wf = true ∧ ¬regFieldRejected check reg = true := by
  simp [Instr.wf, regFieldRejected, or_iff_not_imp_left]

/-! ## The five variants after their first byte -/

section Variants
variable {check : Bool} {b : Byte} {bs rest : List Byte} {i : Instr}

theorem decodeMovRegMemReg_ok : decodeMovRegMemReg b bs = .ok (i, rest) ↔
    ∃ reg rm, i = .movRegMemReg (Dir.ofBit (b.getLsbD 1)) (Width.ofBit (b.getLsbD 0)) reg rm ∧ rm.wf = true ∧
      bs = modeByte reg rm :: (rm.dispBytes ++ rest) := by
  simp only [decodeMovRegMemReg, bind_eq_ok (x := fetch8 bs), Prod.exists, fetch8_ok, read_then_eq_ok, decodeRegMem_ok]
  constructor
  · rintro ⟨m, _, rfl, rm, rfl, rfl, hmod, hrm, hwf⟩
    exact ⟨regField m, rm, rfl, hwf, by rw [← eq_modeByte_iff.2 ⟨hmod, rfl, hrm⟩]⟩
  · rintro ⟨reg, rm, rfl, hwf, rfl⟩
    exact ⟨modeByte reg rm, _, rfl, rm, by simpa using hwf⟩

theorem decodeMovImmRegMem_ok : decodeMovImmRegMem check b bs = .ok (i, rest) ↔
    ∃ reg rm imm, i = .movImmRegMem reg rm imm ∧ i.wf check = true ∧ imm.width = Width.ofBit (b.getLsbD 0) ∧
      bs = modeByte reg rm :: (rm.dispBytes ++ (imm.bytes ++ rest)) := by
  simp only [decodeMovImmRegMem, bind_eq_ok, Prod.exists, fetch8_ok, guarded_eq_ok, decodeRegMem_ok, decodeImm_ok, pure,
    Except.pure, Except.ok.injEq, Prod.mk.injEq]
  constructor
  · rintro ⟨m, _, rfl, hreg, rm, _, ⟨rfl, hmod, hrm, hwf⟩, imm, _, ⟨rfl, hw⟩, rfl, rfl⟩
    exact ⟨regField m, rm, imm, rfl, wf_movImmRegMem.2 ⟨hwf, hreg⟩, hw, by rw [← eq_modeByte_iff.2 ⟨hmod, rfl, hrm⟩]⟩
  · rintro ⟨reg, rm, imm, rfl, hwf, hw, rfl⟩
    obtain ⟨hrm, hreg⟩ := wf_movImmRegMem.1 hwf
    exact ⟨modeByte reg rm, _, rfl, by simpa using hreg, rm, _, by simpa using hrm, imm, rest, ⟨rfl, hw⟩, by simp⟩

theorem decodeMovImmReg_ok : decodeMovImmReg b bs = .ok (i, rest) ↔
    ∃ imm, i = .movImmReg (rmField b) imm ∧ bs = imm.bytes ++ rest ∧ imm.width = Width.ofBit (b.getLsbD 3) := by
  simp only [decodeMovImmReg, read_then_eq_ok, decodeImm_ok]

theorem decodeMovMemAcc_ok : decodeMovMemAcc b bs = .ok (i, rest) ↔
    ∃ a, i = .movMemAcc (Width.ofBit (b.getLsbD 0)) a ∧ bs = wordBytes a ++ rest := by
  simp only [decodeMovMemAcc, read_then_eq_ok, fetch16_ok]

theorem decodeMovAccMem_ok : decodeMovAccMem b bs = .ok (i, rest) ↔
    ∃ a, i = .movAccMem (Width.ofBit (b.getLsbD 0)) a ∧ bs = wordBytes a ++ rest := by
  simp only [decodeMovAccMem, read_then_eq_ok, fetch16_ok]

end Variants

/-! ## First bytes, from their operand bits -/

theorem rmReg_firstByte (d : Dir) (w : Width) :
    let b : Byte := 0b100010#6 ++ d.bit ++ w.bit
    variantOf b = some .rmReg ∧ Dir.ofBit (b.getLsbD 1) = d ∧ Width.ofBit (b.getLsbD 0) = w := by
  cases d <;> cases w <;> decide

theorem immRm_firstByte (w : Width) :
    let b : Byte := 0b1100011#7 ++ w.bit
    variantOf b = some .immRm ∧ Width.ofBit (b.getLsbD 0) = w := by
  cases w <;> decide

theorem immReg_firstByte (w : Width) (reg : Field3) :
    let b : Byte := 0b1011#4 ++ w.bit ++ reg
    variantOf b = some .immReg ∧ Width.ofBit (b.getLsbD 3) = w ∧ rmField b = reg := by
  revert reg
  cases w <;> decide

theorem memAcc_firstByte (w : Width) :
    let b : Byte := 0b1010000#7 ++ w.bit
    variantOf b = some .memAcc ∧ Width.ofBit (b.getLsbD 0) = w := by
  cases w <;> decide

theorem accMem_firstByte (w : Width) :
    let b : Byte := 0b1010001#7 ++ w.bit
    variantOf b = some .accMem ∧ Width.ofBit (b.getLsbD 0) = w := by
  cases w <;> decide

/-! ## The decoder -/

/-- What decodes is well-formed, and the bytes taken are its encoding. -/
theorem eq_encode_of_decode {check : Bool} {bs rest : List Byte} {i : Instr} (h : decode check bs = .ok (i, rest)) :
    i.wf check = true ∧ bs = encode i ++ rest := by
  cases bs with
  | nil => cases h
  | cons b bs =>
    obtain ⟨hrmReg, himmRm, himmReg, hmemAcc, haccMem⟩ := firstByte_of_variant b
    cases hv : variantOf b with
    | none => rw [decode_unknown hv] at h; cases h
    | some v =>
      cases v with
      | rmReg =>
        rw [decode_rmReg hv, decodeMovRegMemReg_ok] at h
        obtain ⟨reg, rm, rfl, hwf, rfl⟩ := h
        refine ⟨hwf, ?_⟩
        rw [encode, dir_bit, width_bit, ← hrmReg hv]
        rfl
      | immRm =>
        rw [decode_immRm hv, decodeMovImmRegMem_ok] at h
        obtain ⟨reg, rm, imm, rfl, hwf, hw, rfl⟩ := h
        refine ⟨hwf, ?_⟩
        rw [encode, hw, width_bit, ← himmRm hv]
        simp
      | immReg =>
        rw [decode_immReg hv, decodeMovImmReg_ok] at h
        obtain ⟨imm, rfl, rfl, hw⟩ := h
        refine ⟨rfl, ?_⟩
        rw [encode, hw, width_bit, ← himmReg hv]
        rfl
      | memAcc =>
        rw [decode_memAcc hv, decodeMovMemAcc_ok] at h
        obtain ⟨a, rfl, rfl⟩ := h
        refine ⟨rfl, ?_⟩
        rw [encode, width_bit, ← hmemAcc hv]
        rfl
      | accMem =>
        rw [decode_accMem hv, decodeMovAccMem_ok] at h
        obtain ⟨a, rfl, rfl⟩ := h
        refine ⟨rfl, ?_⟩
        rw [encode, width_bit, ← haccMem hv]
        rfl

/-- The encoding of a well-formed instruction decodes to it, whatever follows. -/
theorem decode_encode_append {check : Bool} {i : Instr} (hwf : i.wf check = true) (rest : List Byte) :
    decode check (encode i ++ rest) = .ok (i, rest) := by
  cases i with
  | movRegMemReg d w reg rm =>
    obtain ⟨hv, hd, hw⟩ := rmReg_firstByte d w
    rw [encode, List.cons_append, decode_rmReg hv, decodeMovRegMemReg_ok, hd, hw]
    exact ⟨reg, rm, rfl, hwf, rfl⟩
  | movImmRegMem reg rm imm =>
    obtain ⟨hv, hw⟩ := immRm_firstByte imm.width
    rw [encode, List.cons_append, decode_immRm hv, decodeMovImmRegMem_ok, hw]
    exact ⟨reg, rm, imm, rfl, hwf, rfl, by simp⟩
  | movImmReg reg imm =>
    obtain ⟨hv, hw, hreg⟩ := immReg_firstByte imm.width reg
    rw [encode, List.cons_append, decode_immReg hv, decodeMovImmReg_ok, hw, hreg]
    exact ⟨imm, rfl, rfl, rfl⟩
  | movMemAcc w a =>
    obtain ⟨hv, hw⟩ := memAcc_firstByte w
    rw [encode, List.cons_append, decode_memAcc hv, decodeMovMemAcc_ok, hw]
    exact ⟨a, rfl, rfl⟩
  | movAccMem w a =>
    obtain ⟨hv, hw⟩ := accMem_firstByte w
    rw [encode, List.cons_append, decode_accMem hv, decodeMovAccMem_ok, hw]
    exact ⟨a, rfl, rfl⟩

/-- The decoder takes the encoding of a well-formed instruction, and takes nothing else. -/
theorem decode_ok {check : Bool} {bs rest : List Byte} {i : Instr} :
    decode check bs = .ok (i, rest) ↔ i.wf check = true ∧ bs = encode i ++ rest := by
  constructor
  · exact eq_encode_of_decode
  · rintro ⟨hwf, rfl⟩
    exact decode_encode_append hwf rest

end Sys2Proof

namespace Sys2Proof.Machine

/-! ## No read-ahead -/

/-- Settles O7: the bytes taken are the instruction's encoding, whose length is R60's, and that encoding decodes to it in
front of any bytes. -/
theorem noReadAhead : Obligations.NoReadAhead := by
  intro check bs rest i h
  obtain ⟨hwf, rfl⟩ := decode_ok.1 h
  obtain ⟨hlen, hlo, hhi⟩ := encodedLength_statement i
  refine ⟨by rw [List.length_append, hlen], hlo, hhi, fun tail => ?_⟩
  rw [← hlen, List.take_left]
  exact decode_ok.2 ⟨hwf, rfl⟩

end Sys2Proof.Machine

/-! # How an immediate is read (30_encoding.md R57) -/

namespace Sys2Proof

/-- A reader whose value `f` completes fails as the reader does. -/
theorem read_then_eq_error {ε α β : Type} {x : Except ε (α × List Byte)} {f : α → β} {e : ε} :
    (x >>= fun p => pure (f p.1, p.2)) = .error e ↔ x = .error e := by
  cases x <;> simp [bind, Except.bind, pure, Except.pure]

/-- An immediate reader that fails is a truncation: fewer bytes were left than `ImmLen(w)` (R57, R31). -/
theorem decodeImm_error {w : Width} {bs : List Byte} {e : DecodeError} :
    decodeImm w bs = .error e ↔ e = .truncatedInstruction ∧ bs.length < 1 + w.bit.toNat := by
  cases w with
  | byte => exact read_then_eq_error.trans fetch8_error
  | word => exact read_then_eq_error.trans fetch16_error

end Sys2Proof

namespace Sys2Proof.Machine

/-- The 16-bit reading of a two-byte field is the signed reading of its low and high byte (R32, R57). -/
theorem signed16_pair (lo hi : Byte) : signed16 (hi ++ lo) = signedPair lo hi := by
  simp only [signed16, signedPair, pair_toNat]

/-- Settles O20: the reader takes exactly the immediate's bytes, fails only where one is missing, and the encoder writes
them last. -/
theorem immediateReading : Obligations.ImmediateReading := by
  refine ⟨fun v rest => ?_, fun lo hi rest => ?_, ?_, ?_, fun lo => ?_, fun reg rm x => ?_⟩
  · exact ⟨.byte v, decodeImm_ok.2 ⟨rfl, rfl⟩, rfl, rfl, rfl⟩
  · have hbytes : lo :: hi :: rest = (Imm.word (hi ++ lo)).bytes ++ rest := by simp [Imm.bytes]
    exact ⟨.word (hi ++ lo), decodeImm_ok.2 ⟨hbytes, rfl⟩, rfl, rfl, signed16_pair lo hi⟩
  · exact decodeImm_error.2 ⟨rfl, by decide⟩
  · exact decodeImm_error.2 ⟨rfl, by decide⟩
  · exact decodeImm_error.2 ⟨rfl, by simp [Width.bit]⟩
  · exact ⟨length_immBytes x, ⟨_, _, rfl⟩, ⟨_, rfl⟩⟩

end Sys2Proof.Machine

/-! # The dispatcher by its tests (40_dispatch_and_step.md R81) -/

namespace Sys2Proof

/-- A descriptor whose pattern fits in a byte tests an equation of bytes (R52). -/
theorem Descriptor.accepts_iff {d : Descriptor} (h : d.pattern < 256) (b : Byte) :
    d.accepts b = true ↔ b >>> d.shift = BitVec.ofNat 8 d.pattern := by
  rw [accepts, beq_iff_eq, BitVec.toNat_eq, BitVec.toNat_ofNat, Nat.mod_eq_of_lt h]

@[simp] theorem firstMatch_nil (b : Byte) : firstMatch [] b = none := rfl

/-- The first descriptor is tried before the others (R81). -/
theorem firstMatch_cons {d : Descriptor} (h : d.pattern < 256) (ds : List Descriptor) (b : Byte) :
    firstMatch (d :: ds) b =
      if b >>> d.shift = BitVec.ofNat 8 d.pattern then some d.variant else firstMatch ds b := by
  simp only [firstMatch, ← Descriptor.accepts_iff h, List.find?_cons]
  cases d.accepts b <;> rfl

end Sys2Proof

namespace Sys2Proof.Machine

/-- Settles O4: the chain of tests is the search through the list of descriptors, one descriptor at a time. -/
theorem variantByPrefixTests : Obligations.VariantByPrefixTests := by
  intro b
  rw [variantOf, descriptors, firstMatch_cons (by decide), firstMatch_cons (by decide), firstMatch_cons (by decide),
    firstMatch_cons (by decide), firstMatch_cons (by decide), firstMatch_nil]

end Sys2Proof.Machine

/-! # `MOV reg/mem ↔ reg` from its bytes (41_mov_rm_reg.md R100) -/

namespace Sys2Proof

open Machine

/-! ## The operand of a mode byte -/

theorem dispLenOf_le_two (mod : BitVec 2) (rm : Field3) : dispLenOf mod rm ≤ 2 := by
  unfold dispLenOf
  split_ifs <;> decide

/-- An operand has as many displacement or address bytes as its `mod` and `r_m` bits ask for (R55). -/
theorem dispLenOf_bits {x : RegMem} (hwf : x.wf = true) : dispLenOf x.modBits x.rmBits = x.dispLen := by
  cases x with
  | reg rm => rfl
  | direct a => rfl
  | base rm => exact if_neg (bne_iff_ne.1 hwf)
  | disp8 rm v => rfl
  | disp16 rm u => rfl

/-- An operand decoder that fails is a truncation: fewer bytes were left than `DispLen(mod, r_m)` (R55, R31). -/
theorem decodeRegMem_error {mod : BitVec 2} {rm : Field3} {bs : List Byte} {e : DecodeError} :
    decodeRegMem mod rm bs = .error e ↔ e = .truncatedInstruction ∧ bs.length < dispLenOf mod rm := by
  unfold decodeRegMem dispLenOf
  split_ifs
  · simp
  · exact read_then_eq_error.trans fetch16_error
  · simp
  · exact read_then_eq_error.trans fetch8_error
  · exact read_then_eq_error.trans fetch16_error

/-- With `DispLen(mod, r_m)` bytes left, every `mod` and `r_m` name an operand (R54, R55). -/
theorem decodeRegMem_complete {mod : BitVec 2} {rm : Field3} {bs : List Byte} (h : dispLenOf mod rm ≤ bs.length) :
    ∃ x rest, decodeRegMem mod rm bs = .ok (x, rest) := by
  cases hd : decodeRegMem mod rm bs with
  | error e => exact absurd (decodeRegMem_error.1 hd).2 h.not_gt
  | ok p => exact ⟨p.1, p.2, rfl⟩

/-- Variant 1 fails after its mode byte as its operand does (R100). -/
theorem decodeMovRegMemReg_cons_error {b m : Byte} {bs : List Byte} {e : DecodeError} :
    decodeMovRegMemReg b (m :: bs) = .error e ↔
      e = .truncatedInstruction ∧ bs.length < dispLenOf (modField m) (rmField m) :=
  read_then_eq_error.trans decodeRegMem_error

/-- Two bytes that begin with those of a field are that field, low byte first (R32). -/
theorem eq_of_wordBytes {lo hi : Byte} {u : Word16} {rest : List Byte} (h : [lo, hi] = wordBytes u ++ rest) :
    u = hi ++ lo := by
  obtain ⟨hu, -⟩ := Prod.mk.inj (Except.ok.inj (fetch16_ok.2 h))
  exact hu.symm

/-! ## The bytes of variant 1 -/

/-- The first byte of variant 1, by the test of R81. -/
theorem variantOf_rmReg : ∀ {b : Byte}, b >>> 2 = 0b100010#8 → variantOf b = some .rmReg := by decide

/-- The bytes of variant 1 are its first byte, its mode byte and the bytes of its operand (R53, R54). -/
theorem encode_movRegMemReg {b m : Byte} {x : RegMem} (hb : b >>> 2 = 0b100010#8) (hmod : x.modBits = modField m)
    (hrm : x.rmBits = rmField m) :
    encode (.movRegMemReg (Dir.ofBit (b.getLsbD 1)) (Width.ofBit (b.getLsbD 0)) (regField m) x) =
      b :: m :: x.dispBytes := by
  obtain ⟨hfirst, -⟩ := firstByte_of_variant b
  rw [encode, dir_bit, width_bit, ← hfirst (variantOf_rmReg hb), ← eq_modeByte_iff.2 ⟨hmod, rfl, hrm⟩]

end Sys2Proof

namespace Sys2Proof.Machine

/-! ## The bytes at the cursor -/

/-- A range that begins with a list holds it. -/
theorem Memory.bytes_of_append {m : Memory} {a n : Nat} {bs rest : List Byte} (h : m.bytes a n = bs ++ rest) :
    m.bytes a bs.length = bs := by
  have hn : n = bs.length + rest.length := by rw [← List.length_append, ← h, length_bytes]
  rw [hn, bytes_add] at h
  exact (List.append_inj h (length_bytes m a bs.length)).1

/-- Inside the image the stream is the byte at the cursor and what follows it (R31). -/
theorem State.stream_cons {s : State} (h : s.cur < s.len) :
    s.stream = s.imem.read s.cur :: (s.advance 1).stream := by
  rw [State.stream_advance (n := 1) h]
  rfl

/-- At the end of the image nothing is left to read (R31). -/
theorem State.stream_nil {s : State} (h : s.len ≤ s.cur) : s.stream = [] := by
  rw [State.stream, Nat.sub_eq_zero_of_le h, Memory.bytes_zero]

/-- The encoding of a well-formed instruction at the cursor, wholly inside the image, runs (R80). -/
theorem step_of_encode_at_cursor {s : State} {i : Instr} (hrun : s.status = .run) (hwf : i.wf s.immRegCheck = true)
    (hlen : s.cur + (encode i).length ≤ s.len) (hbytes : s.imem.bytes s.cur (encode i).length = encode i) :
    step s = exec i s := by
  obtain ⟨hlength, hlo, -⟩ := encodedLength_statement i
  have hdecode : s.decodeAtCursor = .ok (i, (s.advance (encode i).length).stream) := by
    rw [State.decodeAtCursor, State.stream_advance hlen, hbytes, decode_encode_append hwf]
  rw [step_of_run hrun (by omega), hdecode]

/-- A decode failure at the cursor takes the fault entry (R80, R167). -/
theorem step_of_decode_error {s : State} {e : DecodeError} (hrun : s.status = .run) (hlt : s.cur < s.len)
    (h : s.decodeAtCursor = .error e) : step s = .next (s.takeFault e s.cur) := by
  rw [step_of_run hrun hlt, h]

/-! ## The text of variant 1 -/

/-- An operand is rendered from its bits and its displacement or address bytes, read as R56 says (R100, R132). -/
theorem rmText_eq_operandText {x : RegMem} {lo hi : Byte} {rest : List Byte} (hwf : x.wf = true)
    (h : [lo, hi] = x.dispBytes ++ rest) (w : Width) : rmText w x = operandText w x.modBits x.rmBits lo hi := by
  cases x with
  | reg rm => rfl
  | direct a =>
    obtain rfl := eq_of_wordBytes h
    rw [rmText_direct, addrText, pair_toNat]
    rfl
  | base rm => exact (if_neg (bne_iff_ne.1 hwf)).symm
  | disp8 rm v =>
    obtain ⟨rfl, -⟩ := List.cons.inj h
    rfl
  | disp16 rm u =>
    obtain rfl := eq_of_wordBytes h
    rw [rmText_disp16, signed16_pair]
    rfl

/-- The `d` bit says which operand is the destination (R100). -/
theorem movRegMemRegLine_ofBit (c : Bool) (w : Width) (reg : Field3) (x : RegMem) :
    movRegMemRegLine (Dir.ofBit c) w reg x =
      if c = true then lineText (regName reg w) (rmText w x) else lineText (rmText w x) (regName reg w) := by
  cases c <;> rfl

/-! ## The step -/

/-- Variant 1 at the cursor, complete: the step is the meaning of the instruction that its two bytes and its operand
name (R100). -/
theorem step_movRegMemReg {s : State} {x : RegMem} {rest : List Byte} (hrun : s.status = .run)
    (hb : s.imem.read s.cur >>> 2 = 0b100010#8) (hwf : x.wf = true)
    (hmod : x.modBits = modField (s.imem.read (s.cur + 1))) (hrm : x.rmBits = rmField (s.imem.read (s.cur + 1)))
    (hdisp : s.imem.bytes (s.cur + 2) 2 = x.dispBytes ++ rest) (hlen : s.cur + (2 + x.dispLen) ≤ s.len) :
    let b := s.imem.read s.cur
    step s = execMovRegMemReg (Dir.ofBit (b.getLsbD 1)) (Width.ofBit (b.getLsbD 0))
      (regField (s.imem.read (s.cur + 1))) x s := by
  have hencode := encode_movRegMemReg hb hmod hrm
  have hbytes : s.imem.bytes s.cur 4 = s.imem.read s.cur :: s.imem.read (s.cur + 1) :: x.dispBytes ++ rest := by
    rw [Memory.bytes_succ, Memory.bytes_succ, hdisp]
    rfl
  rw [← hencode] at hbytes
  refine step_of_encode_at_cursor (i := .movRegMemReg _ _ _ x) hrun hwf ?_ (Memory.bytes_of_append hbytes)
  rw [hencode, List.length_cons, List.length_cons, length_dispBytes]
  omega

/-- Variant 1 at the cursor, cut: the mode byte is missing, or a displacement or address byte is (R100). -/
theorem decodeAtCursor_movRegMemReg_truncated {s : State} (hlt : s.cur < s.len)
    (hb : s.imem.read s.cur >>> 2 = 0b100010#8)
    (hcut : s.len < s.cur + (2 + dispLenOf (modField (s.imem.read (s.cur + 1))) (rmField (s.imem.read (s.cur + 1))))) :
    s.decodeAtCursor = .error .truncatedInstruction := by
  rw [State.decodeAtCursor, State.stream_cons hlt, decode_rmReg (variantOf_rmReg hb)]
  by_cases hm : s.cur + 1 < s.len
  · rw [State.stream_cons (s := s.advance 1) hm, decodeMovRegMemReg_cons_error]
    refine ⟨rfl, ?_⟩
    rw [State.length_stream]
    simp only [advance_cur, advance_len, advance_imem]
    omega
  · rw [State.stream_nil (s := s.advance 1) (not_lt.1 hm)]
    rfl

/-- Settles O39: the operand is the one that the two bytes after the mode byte give, and when the stream is too short
for its length the decoder answers `TruncatedInstruction`. -/
theorem movRegMemRegStep : Obligations.MovRegMemRegStep := by
  intro s hrun hlt hb b m w r x n
  constructor
  · intro hlen
    obtain ⟨rm, rest, hd⟩ := decodeRegMem_complete (bs := s.imem.bytes (s.cur + 2) 2)
      (dispLenOf_le_two (modField m) (rmField m))
    obtain ⟨hdisp, hmod, hrm, hwf⟩ := decodeRegMem_ok.1 hd
    have hn : n = 2 + rm.dispLen := by rw [← dispLenOf_bits hwf, hmod, hrm]
    have hx : rmText w rm = x := by rw [rmText_eq_operandText hwf hdisp, hmod, hrm]
    rw [step_movRegMemReg hrun hb hwf hmod hrm hdisp (hn ▸ hlen), execMovRegMemReg, movRegMemRegLine_ofBit, hx, hn]
    rfl
  · intro hcut
    exact step_of_decode_error hrun hlt (decodeAtCursor_movRegMemReg_truncated hlt hb hcut)

end Sys2Proof.Machine

/-! # `MOV imm → reg/mem` from its bytes (42_mov_imm_rm.md R110) -/

namespace Sys2Proof

open Machine

/-! ## The immediate at the end of an instruction -/

/-- An immediate has the length that its width asks for (R57). -/
theorem byteLen_eq (imm : Imm) : imm.byteLen = 1 + imm.width.bit.toNat := by
  cases imm <;> rfl

/-- Any two bytes begin with an immediate of each width, which has the value that R57 gives them. -/
theorem exists_imm_of_bytes (w : Width) (lo hi : Byte) :
    ∃ imm rest, imm.width = w ∧ [lo, hi] = imm.bytes ++ rest ∧
      immValue imm = if w = .byte then signedByte lo else signedPair lo hi := by
  cases w with
  | byte => exact ⟨.byte lo, [hi], rfl, rfl, rfl⟩
  | word => exact ⟨.word (hi ++ lo), [], rfl, by simp [Imm.bytes], signed16_pair lo hi⟩

/-! ## The `reg` field and the bytes of variant 2 -/

/-- The `reg` field is accepted when the implementation ignores it or it is `000` (R63). -/
theorem not_regFieldRejected_iff {check : Bool} {reg : Field3} :
    ¬regFieldRejected check reg = true ↔ check = false ∨ reg = 0b000#3 := by
  simp [regFieldRejected, or_iff_not_imp_right]

/-- The first byte of variant 2, by the test of R81. -/
theorem variantOf_immRm : ∀ {b : Byte}, b >>> 1 = 0b1100011#8 → variantOf b = some .immRm := by decide

/-- The bytes of variant 2 are its first byte, its mode byte and the bytes of its operand and its immediate (R53, R54,
R59). -/
theorem encode_movImmRegMem {b m : Byte} {x : RegMem} {imm : Imm} (hb : b >>> 1 = 0b1100011#8)
    (hmod : x.modBits = modField m) (hrm : x.rmBits = rmField m) (hw : imm.width = Width.ofBit (b.getLsbD 0)) :
    encode (.movImmRegMem (regField m) x imm) = b :: m :: (x.dispBytes ++ imm.bytes) := by
  obtain ⟨-, hfirst, -⟩ := firstByte_of_variant b
  rw [encode, hw, width_bit, ← hfirst (variantOf_immRm hb), ← eq_modeByte_iff.2 ⟨hmod, rfl, hrm⟩]

/-! ## How variant 2 fails after its mode byte -/

section Failures
variable {check : Bool} {b m : Byte} {bs : List Byte}

/-- A rejected `reg` field fails whatever follows the mode byte (R110, R166). -/
theorem decodeMovImmRegMem_cons_rejected (h : regFieldRejected check (regField m) = true) :
    decodeMovImmRegMem check b (m :: bs) = .error .malformedField :=
  if_pos h

/-- With its `reg` field accepted, variant 2 is truncated when fewer bytes are left than its operand and its immediate
need (R110, R162). -/
theorem decodeMovImmRegMem_cons_truncated (h : ¬regFieldRejected check (regField m) = true)
    (hcut : bs.length < dispLenOf (modField m) (rmField m) + (1 + (Width.ofBit (b.getLsbD 0)).bit.toNat)) :
    decodeMovImmRegMem check b (m :: bs) = .error .truncatedInstruction := by
  refine (if_neg h).trans (bind_eq_error.2 ?_)
  cases hd : decodeRegMem (modField m) (rmField m) bs with
  | error e => exact .inl (congrArg _ (decodeRegMem_error.1 hd).1)
  | ok p =>
    obtain ⟨x, rest⟩ := p
    obtain ⟨rfl, hmod, hrm, hwf⟩ := decodeRegMem_ok.1 hd
    rw [← hmod, ← hrm, dispLenOf_bits hwf, List.length_append, length_dispBytes] at hcut
    exact .inr ⟨_, rfl, read_then_eq_error.2 (decodeImm_error.2 ⟨rfl, by omega⟩)⟩

end Failures

end Sys2Proof

namespace Sys2Proof.Machine

/-! ## The text of variant 2 -/

/-- The qualifier names the width of the immediate (R68). -/
theorem qualifier_eq (w : Width) : qualifier w = if w = .byte then "byte ".toList else "word ".toList := by
  cases w <;> rfl

/-! ## The step -/

/-- Variant 2 at the cursor, complete and with its `reg` field accepted: the step commits the instruction that its first
two bytes, its operand and its immediate name (R110). -/
theorem step_movImmRegMem {s : State} {x : RegMem} {imm : Imm} {rest rest' : List Byte} (hrun : s.status = .run)
    (hb : s.imem.read s.cur >>> 1 = 0b1100011#8)
    (hreg : ¬regFieldRejected s.immRegCheck (regField (s.imem.read (s.cur + 1))) = true) (hwf : x.wf = true)
    (hmod : x.modBits = modField (s.imem.read (s.cur + 1))) (hrm : x.rmBits = rmField (s.imem.read (s.cur + 1)))
    (hw : imm.width = Width.ofBit ((s.imem.read s.cur).getLsbD 0))
    (hdisp : s.imem.bytes (s.cur + 2) 2 = x.dispBytes ++ rest)
    (himm : s.imem.bytes (s.cur + 2 + x.dispLen) 2 = imm.bytes ++ rest')
    (hlen : s.cur + (2 + x.dispLen + imm.byteLen) ≤ s.len) :
    step s = .next (s.commit (movImmRegMemLine x imm) (2 + x.dispLen + imm.byteLen)) := by
  have hencode := encode_movImmRegMem hb hmod hrm hw
  have hlength : (encode (.movImmRegMem (regField (s.imem.read (s.cur + 1))) x imm)).length =
      x.dispLen + imm.byteLen + 2 := by
    rw [hencode, List.length_cons, List.length_cons, List.length_append, length_dispBytes, length_immBytes]
  have htail : s.imem.bytes (s.cur + 2) (x.dispLen + imm.byteLen) = x.dispBytes ++ imm.bytes := by
    have hd := Memory.bytes_of_append hdisp
    have hi := Memory.bytes_of_append himm
    rw [length_dispBytes] at hd
    rw [length_immBytes] at hi
    rw [Memory.bytes_add, hd, hi]
  have hstep : step s = exec (.movImmRegMem (regField (s.imem.read (s.cur + 1))) x imm) s := by
    refine step_of_encode_at_cursor hrun (wf_movImmRegMem.2 ⟨hwf, hreg⟩) (by omega) ?_
    rw [hlength, hencode, Memory.bytes_succ, Memory.bytes_succ, htail]
  exact hstep.trans (if_neg hreg)

/-- Variant 2 at the cursor, its mode byte there and its `reg` field rejected (R110). -/
theorem decodeAtCursor_movImmRegMem_rejected {s : State} (hmode : s.cur + 2 ≤ s.len)
    (hb : s.imem.read s.cur >>> 1 = 0b1100011#8)
    (hreg : regFieldRejected s.immRegCheck (regField (s.imem.read (s.cur + 1))) = true) :
    s.decodeAtCursor = .error .malformedField := by
  rw [State.decodeAtCursor, State.stream_cons (by omega), decode_immRm (variantOf_immRm hb),
    State.stream_cons (s := s.advance 1) hmode]
  exact decodeMovImmRegMem_cons_rejected hreg

/-- Variant 2 at the cursor, cut: the mode byte is missing, or it is accepted and a byte of the operand or of the
immediate is missing (R110). -/
theorem decodeAtCursor_movImmRegMem_truncated {s : State} (hlt : s.cur < s.len)
    (hb : s.imem.read s.cur >>> 1 = 0b1100011#8)
    (hreg : s.cur + 2 ≤ s.len → ¬regFieldRejected s.immRegCheck (regField (s.imem.read (s.cur + 1))) = true)
    (hcut : s.len < s.cur + 2 + dispLenOf (modField (s.imem.read (s.cur + 1))) (rmField (s.imem.read (s.cur + 1))) +
      (1 + (Width.ofBit ((s.imem.read s.cur).getLsbD 0)).bit.toNat)) :
    s.decodeAtCursor = .error .truncatedInstruction := by
  rw [State.decodeAtCursor, State.stream_cons hlt, decode_immRm (variantOf_immRm hb)]
  by_cases hm : s.cur + 2 ≤ s.len
  · rw [State.stream_cons (s := s.advance 1) hm]
    refine decodeMovImmRegMem_cons_truncated (hreg hm) ?_
    rw [State.length_stream]
    simp only [advance_cur, advance_len, advance_imem]
    omega
  · rw [State.stream_nil (s := s.advance 1) (Nat.lt_succ_iff.1 (not_le.1 hm))]
    rfl

/-- Settles O40: a rejected `reg` field fails right after the mode byte; otherwise the operand and the immediate are
those that the bytes after it give, and when the stream is too short for them the decoder answers
`TruncatedInstruction`. -/
theorem movImmRegMemStep : Obligations.MovImmRegMemStep := by
  intro s hrun hlt hb b m w k x v q e
  have he : e = k + (1 + w.bit.toNat) := by
    simp only [e]
    cases w <;> rfl
  refine ⟨fun hmode hcheck hreg => ?_, fun haccept hlen => ?_, fun hcause hcut => ?_⟩
  · have hrejected : regFieldRejected s.immRegCheck (regField m) = true := by simp [regFieldRejected, hcheck, hreg]
    exact step_of_decode_error hrun hlt (decodeAtCursor_movImmRegMem_rejected hmode hb hrejected)
  · obtain ⟨rm, rest, hd⟩ := decodeRegMem_complete (bs := s.imem.bytes (s.cur + 2) 2)
      (dispLenOf_le_two (modField m) (rmField m))
    obtain ⟨hdisp, hmod, hrm, hwf⟩ := decodeRegMem_ok.1 hd
    obtain ⟨imm, rest', hw, himm, hv⟩ := exists_imm_of_bytes w (s.imem.read k) (s.imem.read (k + 1))
    have hk : k = s.cur + 2 + rm.dispLen := by rw [← dispLenOf_bits hwf, hmod, hrm]
    have hn : e = s.cur + (2 + rm.dispLen + imm.byteLen) := by rw [he, hk, byteLen_eq, hw]; omega
    have hx : rmText w rm = x := by rw [rmText_eq_operandText hwf hdisp, hmod, hrm]
    rw [step_movImmRegMem hrun hb (not_regFieldRejected_iff.2 haccept) hwf hmod hrm hw hdisp (hk ▸ himm) (hn ▸ hlen),
      movImmRegMemLine, hw, hx, hv, qualifier_eq, hn]
    rfl
  · have hreg (hmode : s.cur + 2 ≤ s.len) : ¬regFieldRejected s.immRegCheck (regField m) = true :=
      not_regFieldRejected_iff.2 (hcause.imp_right fun h => h.resolve_right hmode.not_gt)
    exact step_of_decode_error hrun hlt (decodeAtCursor_movImmRegMem_truncated hlt hb hreg (he ▸ hcut))

end Sys2Proof.Machine

/-! # `MOV imm → reg (short)` from its bytes (43_mov_imm_reg.md R120) -/

namespace Sys2Proof

/-! ## The bytes of variant 3 -/

/-- The first byte of variant 3, by the test of R81. -/
theorem variantOf_immReg : ∀ {b : Byte}, b >>> 4 = 0b1011#8 → variantOf b = some .immReg := by decide

/-- The bytes of variant 3 are its first byte and the bytes of its immediate (R53, R57). -/
theorem encode_movImmReg {b : Byte} {imm : Imm} (hb : b >>> 4 = 0b1011#8)
    (hw : imm.width = Width.ofBit (b.getLsbD 3)) : encode (.movImmReg (rmField b) imm) = b :: imm.bytes := by
  obtain ⟨-, -, hfirst, -⟩ := firstByte_of_variant b
  rw [encode, hw, width_bit, ← hfirst (variantOf_immReg hb)]

/-- Variant 3 fails after its first byte as its immediate does (R120). -/
theorem decodeMovImmReg_error {b : Byte} {bs : List Byte} {e : DecodeError} :
    decodeMovImmReg b bs = .error e ↔
      e = .truncatedInstruction ∧ bs.length < 1 + (Width.ofBit (b.getLsbD 3)).bit.toNat :=
  read_then_eq_error.trans decodeImm_error

end Sys2Proof

namespace Sys2Proof.Machine

/-! ## The step -/

/-- Variant 3 at the cursor, complete: the step commits the instruction that its first byte and its immediate name
(R120). -/
theorem step_movImmReg {s : State} {imm : Imm} {rest : List Byte} (hrun : s.status = .run)
    (hb : s.imem.read s.cur >>> 4 = 0b1011#8) (hw : imm.width = Width.ofBit ((s.imem.read s.cur).getLsbD 3))
    (himm : s.imem.bytes (s.cur + 1) 2 = imm.bytes ++ rest) (hlen : s.cur + (1 + imm.byteLen) ≤ s.len) :
    step s = .next (s.commit (movImmRegLine (rmField (s.imem.read s.cur)) imm) (1 + imm.byteLen)) := by
  have hencode := encode_movImmReg hb hw
  have hbytes : s.imem.bytes s.cur 3 = s.imem.read s.cur :: imm.bytes ++ rest := by
    rw [Memory.bytes_succ, himm]
    rfl
  rw [← hencode] at hbytes
  refine step_of_encode_at_cursor (i := .movImmReg _ imm) hrun rfl ?_ (Memory.bytes_of_append hbytes)
  rw [hencode, List.length_cons, length_immBytes]
  omega

/-- Variant 3 at the cursor, cut: a byte of its immediate is missing (R120). -/
theorem decodeAtCursor_movImmReg_truncated {s : State} (hlt : s.cur < s.len)
    (hb : s.imem.read s.cur >>> 4 = 0b1011#8)
    (hcut : s.len < s.cur + (2 + (Width.ofBit ((s.imem.read s.cur).getLsbD 3)).bit.toNat)) :
    s.decodeAtCursor = .error .truncatedInstruction := by
  rw [State.decodeAtCursor, State.stream_cons hlt, decode_immReg (variantOf_immReg hb), decodeMovImmReg_error]
  refine ⟨rfl, ?_⟩
  rw [State.length_stream, advance_len, advance_cur]
  omega

/-- Settles O41: the immediate is the one that the bytes after the first give for its `w` bit, and when the stream is too
short for it the decoder answers `TruncatedInstruction`. -/
theorem movImmRegStep : Obligations.MovImmRegStep := by
  intro s hrun hlt hb b w v n
  have hn : n = 2 + w.bit.toNat := by
    simp only [n]
    cases w <;> rfl
  constructor
  · intro hlen
    obtain ⟨imm, rest, hw, himm, hv⟩ := exists_imm_of_bytes w (s.imem.read (s.cur + 1)) (s.imem.read (s.cur + 2))
    have hbyteLen : n = 1 + imm.byteLen := by rw [hn, byteLen_eq, hw]; omega
    rw [step_movImmReg hrun hb hw himm (hbyteLen ▸ hlen), movImmRegLine, hw, hv, hbyteLen]
    rfl
  · intro hcut
    exact step_of_decode_error hrun hlt (decodeAtCursor_movImmReg_truncated hlt hb (hn ▸ hcut))

end Sys2Proof.Machine

/-! # How an operand is rendered (44_operand_rendering.md R130 to R133, R140, R141) -/

namespace Sys2Proof

/-! ## The bytes an operand leaves -/

/-- The operand decoder leaves the bytes after the first `DispLen(mod, r_m)` (R55). -/
theorem rest_of_decodeRegMem {mod : BitVec 2} {rm : Field3} {bs rest : List Byte} {x : RegMem}
    (h : decodeRegMem mod rm bs = .ok (x, rest)) : rest = bs.drop (Machine.dispLenOf mod rm) := by
  obtain ⟨rfl, rfl, rfl, hwf⟩ := decodeRegMem_ok.1 h
  rw [dispLenOf_bits hwf, List.drop_left' (length_dispBytes x)]

/-- Bytes after those an operand takes do not change it (R36). -/
theorem decodeRegMem_append {mod : BitVec 2} {rm : Field3} {bs rest : List Byte} {x : RegMem}
    (h : decodeRegMem mod rm bs = .ok (x, rest)) (more : List Byte) :
    decodeRegMem mod rm (bs ++ more) = .ok (x, rest ++ more) := by
  obtain ⟨rfl, hbits⟩ := decodeRegMem_ok.1 h
  exact decodeRegMem_ok.2 ⟨List.append_assoc _ _ _, hbits⟩

end Sys2Proof

namespace Sys2Proof.Machine

/-! ## Memory operands (R132) -/

/-- With `mod` other than `11`, the operand that two bytes give is rendered by `EA(mod, r_m)` (R132). -/
theorem rmText_of_decodeRegMem {mod : BitVec 2} {rm : Field3} {lo hi : Byte} {rest : List Byte} {x : RegMem}
    (hmod : mod ≠ 0b11#2) (h : decodeRegMem mod rm [lo, hi] = .ok (x, rest)) (w : Width) :
    rmText w x = eaText mod rm lo hi := by
  obtain ⟨hbytes, rfl, rfl, hwf⟩ := decodeRegMem_ok.1 h
  rw [rmText_eq_operandText hwf hbytes, operandText, if_neg hmod]

/-- Settles O15: two bytes are enough for every operand, which takes its `DispLen(mod, r_m)` of them and is rendered from
them; the decoder fails exactly when fewer than that are left. -/
theorem effectiveAddress : Obligations.EffectiveAddress := by
  intro mod rm w hmod
  refine ⟨fun lo hi rest => ?_, fun bs hshort => ?_, fun bs hlen => ?_⟩
  · obtain ⟨x, left, hx⟩ := decodeRegMem_complete (bs := [lo, hi]) (dispLenOf_le_two mod rm)
    have happend : decodeRegMem mod rm (lo :: hi :: rest) = .ok (x, left ++ rest) := decodeRegMem_append hx rest
    exact ⟨x, rest_of_decodeRegMem happend ▸ happend, rmText_of_decodeRegMem hmod hx w⟩
  · exact decodeRegMem_error.2 ⟨rfl, hshort⟩
  · obtain ⟨x, rest, hx⟩ := decodeRegMem_complete hlen
    exact ⟨x, rest_of_decodeRegMem hx ▸ hx⟩

/-! ## Tables of names (R130, R131, R140) -/

/-- Settles O11: the sixteen entries of the table, each looked up. -/
theorem registerNameTable : Obligations.RegisterNameTable := by
  unfold Obligations.RegisterNameTable
  decide

/-- Settles O13: the accumulator is the register table's entry for `000`. -/
theorem accumulatorName : Obligations.AccumulatorName := by
  obtain ⟨hal, hax, -⟩ := registerNameTable
  exact ⟨fun _ => rfl, hal, hax⟩

/-- Settles O14: the eight entries of the table, each looked up. -/
theorem baseExpressionTable : Obligations.BaseExpressionTable := by
  unfold Obligations.BaseExpressionTable
  decide

/-! ## Displacements (R133) -/

@[simp] theorem dispText_zero : dispText 0 = [] := rfl

theorem dispText_of_pos {d : Int} (h : 0 < d) : dispText d = " + ".toList ++ dec d := by
  rw [dispText, if_neg h.ne', if_pos h]

theorem dispText_of_neg {d : Int} (h : d < 0) : dispText d = " - ".toList ++ dec (-d) := by
  rw [dispText, if_neg h.ne, if_neg h.not_gt]

/-- Settles O16: the three cases of the sign, and the least 16-bit displacement as an instance of the negative one. -/
theorem displacementText : Obligations.DisplacementText := by
  refine ⟨?_, fun d => dispText_of_pos, fun d => dispText_of_neg, ?_⟩
  · rintro _ rfl
    exact dispText_zero
  · rw [dispText_of_neg (by decide)]
    decide

/-! ## Signed readings (R141) -/

/-- `sext_16` is the two's-complement reading of a byte (R8, R141). -/
theorem sext16_eq_toInt (v : Byte) : sext16 v = v.toInt := by
  rw [sext16, BitVec.toInt_eq_toNat_cond]
  split_ifs <;> omega

/-- `signed_16` is the two's-complement reading of a 16-bit field (R8). -/
theorem signed16_eq_toInt (u : Word16) : signed16 u = u.toInt := by
  rw [signed16, BitVec.toInt_eq_toNat_cond]
  split_ifs <;> omega

/-- A byte whose top bit is set is rendered with a minus sign and a magnitude of 1 to 128 (R133, R141). -/
theorem dispText_sext16_of_msb {v : Byte} (h : v.msb = true) :
    ∃ n : Nat, 1 ≤ n ∧ n ≤ 128 ∧ dispText (sext16 v) = " - ".toList ++ dec n := by
  have hneg : sext16 v < 0 := sext16_eq_toInt v ▸ BitVec.toInt_neg_of_msb_true h
  have hlow : -128 ≤ sext16 v := sext16_eq_toInt v ▸ BitVec.le_toInt v
  obtain ⟨n, hn⟩ := Int.eq_ofNat_of_zero_le (show 0 ≤ -sext16 v by omega)
  refine ⟨n, by omega, by omega, ?_⟩
  rw [dispText_of_neg hneg, hn]

/-- Settles O19: both readings are the two's-complement one, which sign extension keeps; the boundary values are instances,
and the rendering of a byte with its top bit set is that of a negative displacement. -/
theorem signExtension : Obligations.SignExtension := by
  have hsext (v : Byte) : sext16 v = (v.signExtend 16).toInt :=
    (sext16_eq_toInt v).trans (BitVec.toInt_signExtend_of_le (by decide)).symm
  exact ⟨fun v => ⟨hsext v, sext16_eq_toInt v⟩, signed16_eq_toInt, rfl, rfl, rfl, rfl, rfl, rfl, rfl, rfl, rfl, rfl,
    fun _ hv => dispText_sext16_of_msb hv⟩

end Sys2Proof.Machine

/-! # `MOV mem → acc` and `MOV acc → mem` from their bytes (45_mov_acc_mem.md R150, R151) -/

namespace Sys2Proof

/-- The first byte of `MOV mem → acc`, by the test of R81. -/
theorem variantOf_memAcc : ∀ {b : Byte}, b >>> 1 = 0b1010000#8 → variantOf b = some .memAcc := by decide

/-- The first byte of `MOV acc → mem`, by the test of R81. -/
theorem variantOf_accMem : ∀ {b : Byte}, b >>> 1 = 0b1010001#8 → variantOf b = some .accMem := by decide

end Sys2Proof

namespace Sys2Proof.Machine

/-- A direct address is rendered as the unsigned value of its low and high byte (R32, R58). -/
theorem addrText_pair (lo hi : Byte) :
    addrText (hi ++ lo) = bracketed (dec (hi.toNat * 256 + lo.toNat : Nat)) := by
  rw [addrText, pair_toNat]

/-! ## The step, for both forms at once -/

section AddressForm

/- `i` makes an instruction of the address that follows its first byte, and `line` its line of the address text. -/
variable {s : State} {i : Word16 → Instr} {line : Text → Text} (hrun : s.status = .run) (hlt : s.cur < s.len)
  (hdecode : ∀ bs, decode s.immRegCheck (s.imem.read s.cur :: bs) = fetch16 bs >>= fun p => pure (i p.1, p.2))
include hrun hlt hdecode

/-- With both address bytes inside the image, the step commits the line of the address they give (R150, R151). -/
theorem step_of_address (hexec : ∀ addr, exec (i addr) s = .next (s.commit (line (addrText addr)) 3))
    (hlen : s.cur + 3 ≤ s.len) :
    step s = .next (s.commit (line (bracketed (dec
      ((s.imem.read (s.cur + 2)).toNat * 256 + (s.imem.read (s.cur + 1)).toNat : Nat)))) 3) := by
  have hfetch : fetch16 (s.advance 1).stream =
      .ok (s.imem.read (s.cur + 2) ++ s.imem.read (s.cur + 1), (s.advance 3).stream) := by
    have hroom : (s.advance 1).cur + 2 ≤ (s.advance 1).len := hlen
    rw [State.stream_advance hroom]
    rfl
  have hd : s.decodeAtCursor = .ok (i (s.imem.read (s.cur + 2) ++ s.imem.read (s.cur + 1)), (s.advance 3).stream) := by
    rw [State.decodeAtCursor, State.stream_cons hlt, hdecode]
    exact read_then_eq_ok.2 ⟨_, rfl, hfetch⟩
  rw [step_of_run hrun hlt, hd, ← addrText_pair]
  exact hexec _

/-- With an address byte missing, the step takes `TruncatedInstruction` (R150, R151, R162). -/
theorem step_of_address_truncated (hcut : s.len < s.cur + 3) :
    step s = .next (s.takeFault .truncatedInstruction s.cur) := by
  refine step_of_decode_error hrun hlt ?_
  rw [State.decodeAtCursor, State.stream_cons hlt, hdecode, read_then_eq_error, fetch16_error]
  refine ⟨rfl, ?_⟩
  rw [State.length_stream, advance_len, advance_cur]
  omega

end AddressForm

/-- Settles O42: after its first byte the decoder reads an address and nothing else, whatever `w` is, and the line is
that of the address read. -/
theorem movMemAccStep : Obligations.MovMemAccStep := by
  intro s hrun hlt hb w a
  have hdecode := decode_memAcc (variantOf_memAcc hb) s.immRegCheck
  exact ⟨step_of_address (line := fun x => lineText (accName w) x) hrun hlt hdecode fun _ => rfl,
    step_of_address_truncated hrun hlt hdecode⟩

/-- Settles O43: after its first byte the decoder reads an address and nothing else, whatever `w` is, and the line is
that of the address read. -/
theorem movAccMemStep : Obligations.MovAccMemStep := by
  intro s hrun hlt hb w a
  have hdecode := decode_accMem (variantOf_accMem hb) s.immRegCheck
  exact ⟨step_of_address (line := fun x => lineText x (accName w)) hrun hlt hdecode fun _ => rfl,
    step_of_address_truncated hrun hlt hdecode⟩

end Sys2Proof.Machine

/-! # The first bytes that no variant takes (60_exceptions.md R161) -/

namespace Sys2Proof

/-- The 26 first bytes that the five variants take, in ascending order (R62). -/
def recognisedBytes : List Byte :=
  [0x88#8, 0x89#8, 0x8A#8, 0x8B#8, 0xA0#8, 0xA1#8, 0xA2#8, 0xA3#8, 0xB0#8, 0xB1#8, 0xB2#8, 0xB3#8, 0xB4#8, 0xB5#8,
    0xB6#8, 0xB7#8, 0xB8#8, 0xB9#8, 0xBA#8, 0xBB#8, 0xBC#8, 0xBD#8, 0xBE#8, 0xBF#8, 0xC6#8, 0xC7#8]

/-- The dispatcher finds no variant for exactly the other 230 bytes (R81, R161). -/
theorem variantOf_eq_none_iff : ∀ {b : Byte}, variantOf b = none ↔ b ∉ recognisedBytes := by decide

end Sys2Proof

namespace Sys2Proof.Machine

/-- An unrecognised byte at the cursor is the decoder's answer, whatever the rest of the stream is (R161). -/
theorem decodeAtCursor_unknown {s : State} (hlt : s.cur < s.len) (h : s.imem.read s.cur ∉ recognisedBytes) :
    s.decodeAtCursor = .error .unknownOpcode := by
  rw [State.decodeAtCursor, State.stream_cons hlt, decode_unknown (variantOf_eq_none_iff.2 h)]

/-- Settles O38: the dispatcher has no variant for the byte at the cursor, so the decoder fails before it reads another
byte, and the fault entry leaves the cursor where it is. -/
theorem unknownOpcodeFaults : Obligations.UnknownOpcodeFaults := by
  intro s hrun hlt hother
  have hunrecognised : s.imem.read s.cur ∉ recognisedBytes := fun hmem => hother _ hmem rfl
  exact step_of_decode_error hrun hlt (decodeAtCursor_unknown hlt hunrecognised)

end Sys2Proof.Machine

/-! # What the decoder answers (30_encoding.md sections 2 to 6, 60_exceptions.md section 1) -/

namespace Sys2Proof.Machine

/-- Settles O2, by the round trip of each constructor. -/
theorem decodeEncodeAgree : Obligations.DecodeEncodeAgree :=
  fun _ _ rest hwf => decode_encode_append hwf rest

/-- Settles O3, by what each variant's reader takes after its first byte. -/
theorem decodedBytesAreTheEncoding : Obligations.DecodedBytesAreTheEncoding :=
  fun _ _ _ _ h => eq_encode_of_decode h

/-- Settles O1: the bytes of each scenario are its instruction's encoding, and the encoding decodes to it. -/
theorem specWordsDecode : Obligations.SpecWordsDecode := by
  intro check
  have h {i : Instr} {bs : List Byte} (hwf : i.wf check = true) (hbs : bs = encode i) :
      decode check bs = .ok (i, []) := decode_ok.2 ⟨hwf, by rw [hbs, List.append_nil]⟩
  exact ⟨h rfl rfl, h rfl rfl, h rfl rfl, h rfl rfl, h rfl rfl, h rfl rfl, h rfl rfl, h rfl rfl⟩

end Sys2Proof.Machine

namespace Sys2Proof

/-! ## One variant at most for each first byte (R52, 90_conflicts.md C2) -/

/-- No byte is accepted by two descriptors. -/
theorem descriptors_disjoint : ∀ b : Byte, (descriptors.filter fun d => d.accepts b).length ≤ 1 := by decide

/-- A rearrangement of a list of at most one element is that list. -/
theorem eq_of_perm_of_length_le_one {α : Type} {l l' : List α} (h : l.Perm l') (hl : l'.length ≤ 1) : l = l' := by
  match l', hl with
  | [], _ => exact h.eq_nil
  | [a], _ => exact List.perm_singleton.1 h

end Sys2Proof

namespace Sys2Proof.Machine

/-- Settles O5: the descriptors that accept the byte are at most one, so every order of the list has the same ones. -/
theorem dispatchOrderIrrelevant : Obligations.DispatchOrderIrrelevant := by
  intro ds b hperm
  have hsame := eq_of_perm_of_length_le_one (hperm.filter fun d => d.accepts b) (descriptors_disjoint b)
  rw [variantOf, firstMatch, firstMatch, ← List.head?_filter, ← List.head?_filter, hsame]

/-- Settles O6, over the 256 first bytes. -/
theorem matchMaskTable : Obligations.MatchMaskTable := by
  unfold Obligations.MatchMaskTable
  decide

end Sys2Proof.Machine

namespace Sys2Proof

open Machine

/-! ## How the decoder fails (R161 to R163) -/

/-- A width asks for at most one byte more (R57). -/
theorem width_bit_le_one (w : Width) : w.bit.toNat ≤ 1 := by
  cases w <;> decide

section Failures
variable {check : Bool} {b : Byte} {bs : List Byte} {e : DecodeError}

/-- Variant 1 fails for want of one of at most three bytes after its first (R55). -/
theorem decodeMovRegMemReg_error (h : decodeMovRegMemReg b bs = .error e) :
    e = .truncatedInstruction ∧ bs.length < 5 := by
  cases bs with
  | nil => cases h; exact ⟨rfl, by decide⟩
  | cons m bs =>
    obtain ⟨rfl, hshort⟩ := decodeMovRegMemReg_cons_error.1 h
    have := dispLenOf_le_two (modField m) (rmField m)
    exact ⟨rfl, by rw [List.length_cons]; omega⟩

/-- Variant 2 fails for want of one of at most five bytes after its first, or on the `reg` field of its mode byte
(R110). -/
theorem decodeMovImmRegMem_error (h : decodeMovImmRegMem check b bs = .error e) :
    (e = .truncatedInstruction ∧ bs.length < 5) ∨
      (e = .malformedField ∧ ∃ m tail, bs = m :: tail ∧ regFieldRejected check (regField m) = true) := by
  cases bs with
  | nil => cases h; exact .inl ⟨rfl, by decide⟩
  | cons m bs =>
    by_cases hreg : regFieldRejected check (regField m) = true
    · rw [decodeMovImmRegMem_cons_rejected hreg] at h
      cases h
      exact .inr ⟨rfl, m, bs, rfl, hreg⟩
    · left
      have hdisp := dispLenOf_le_two (modField m) (rmField m)
      have hwidth := width_bit_le_one (Width.ofBit (b.getLsbD 0))
      obtain hd | ⟨⟨x, rest⟩, hd, himm⟩ := bind_eq_error.1 ((if_neg hreg).symm.trans h)
      · obtain ⟨rfl, hshort⟩ := decodeRegMem_error.1 hd
        exact ⟨rfl, by rw [List.length_cons]; omega⟩
      · obtain ⟨rfl, hshort⟩ := decodeImm_error.1 (read_then_eq_error.1 himm)
        obtain ⟨rfl, hmod, hrm, hwf⟩ := decodeRegMem_ok.1 hd
        rw [← hmod, ← hrm, dispLenOf_bits hwf] at hdisp
        refine ⟨rfl, ?_⟩
        rw [List.length_cons, List.length_append, length_dispBytes]
        omega

/-- Variants 4 and 5 fail for want of an address byte (R150, R151). -/
theorem read_address_error {f : Word16 → Instr} (h : (fetch16 bs >>= fun p => pure (f p.1, p.2)) = .error e) :
    e = .truncatedInstruction ∧ bs.length < 5 := by
  obtain ⟨rfl, hshort⟩ := fetch16_error.1 (read_then_eq_error.1 h)
  exact ⟨rfl, by omega⟩

/-- Everything that can be wrong with the bytes after a first byte: one of five is missing, no variant takes the first, or
variant 2 finds a rejected `reg` field (R161 to R163). -/
theorem decode_error_cases (h : decode check (b :: bs) = .error e) :
    (e = .truncatedInstruction ∧ bs.length < 5) ∨ (e = .unknownOpcode ∧ variantOf b = none) ∨
      (e = .malformedField ∧ variantOf b = some .immRm ∧
        ∃ m tail, bs = m :: tail ∧ regFieldRejected check (regField m) = true) := by
  cases hv : variantOf b with
  | none => rw [decode_unknown hv] at h; cases h; exact .inr (.inl ⟨rfl, rfl⟩)
  | some v =>
    cases v with
    | rmReg => rw [decode_rmReg hv] at h; exact .inl (decodeMovRegMemReg_error h)
    | immRm =>
      rw [decode_immRm hv] at h
      obtain hshort | ⟨he, hreg⟩ := decodeMovImmRegMem_error h
      · exact .inl hshort
      · exact .inr (.inr ⟨he, rfl, hreg⟩)
    | immReg =>
      rw [decode_immReg hv] at h
      obtain ⟨he, hshort⟩ := decodeMovImmReg_error.1 h
      have := width_bit_le_one (Width.ofBit (b.getLsbD 3))
      exact .inl ⟨he, by omega⟩
    | memAcc => rw [decode_memAcc hv] at h; exact .inl (read_address_error h)
    | accMem => rw [decode_accMem hv] at h; exact .inl (read_address_error h)

/-- An error other than a truncation stands whatever bytes follow (R161, R166). -/
theorem decode_error_append (h : decode check (b :: bs) = .error e) (he : e ≠ .truncatedInstruction)
    (more : List Byte) : decode check (b :: bs ++ more) = .error e := by
  obtain ⟨rfl, -⟩ | ⟨rfl, hv⟩ | ⟨rfl, hv, m, tail, rfl, hreg⟩ := decode_error_cases h
  · exact absurd rfl he
  · exact decode_unknown hv check _
  · rw [List.cons_append, decode_immRm hv]
    exact decodeMovImmRegMem_cons_rejected hreg

end Failures

/-- The first bytes of an encoding, not all of them, decode to nothing: another instruction would begin the encoding
(R36). -/
theorem decode_take_encode_ne_ok {check : Bool} {i : Instr} {n : Nat} (hwf : i.wf check = true)
    (hn : n < (encode i).length) (p : Instr × List Byte) : decode check ((encode i).take n) ≠ .ok p := by
  obtain ⟨j, rest⟩ := p
  intro h
  obtain ⟨hwfj, hbytes⟩ := decode_ok.1 h
  have hwhole : encode i = encode j ++ (rest ++ (encode i).drop n) := by
    rw [← List.append_assoc, ← hbytes, List.take_append_drop]
  have hi : decode check (encode i) = .ok (i, []) := decode_ok.2 ⟨hwf, (List.append_nil _).symm⟩
  have hj : decode check (encode i) = .ok (j, rest ++ (encode i).drop n) := decode_ok.2 ⟨hwfj, hwhole⟩
  rw [hi] at hj
  obtain ⟨-, hdrop⟩ := Prod.mk.inj (Except.ok.inj hj)
  have hlength := congrArg List.length hdrop
  rw [List.length_append, List.length_drop, List.length_nil] at hlength
  omega

end Sys2Proof

namespace Sys2Proof.Machine

/-- Settles O8: the cut bytes decode to nothing, and an error other than a truncation would be the whole encoding's too. -/
theorem cutInstructionIsTruncated : Obligations.CutInstructionIsTruncated := by
  intro check i n hwf hpos hn
  obtain ⟨hlen, -⟩ := encodedLength_statement i
  cases hd : decode check ((encode i).take n) with
  | ok p => exact absurd hd (decode_take_encode_ne_ok hwf (hlen ▸ hn) p)
  | error e =>
    by_contra hne
    obtain ⟨b, bs, hcut⟩ : ∃ b bs, (encode i).take n = b :: bs :=
      List.exists_cons_of_length_pos (by rw [List.length_take, hlen]; omega)
    rw [hcut] at hd
    have hwhole := decode_error_append hd (fun he => hne (congrArg _ he)) ((encode i).drop n)
    have hok := decode_encode_append hwf []
    rw [← hcut, List.take_append_drop] at hwhole
    rw [List.append_nil, hwhole] at hok
    cases hok

/-- Settles O9: none of the three ways to fail is left. -/
theorem recognisedAndCompleteDecodes : Obligations.RecognisedAndCompleteDecodes := by
  intro check b m bs hknown hlen hreg
  cases hd : decode check (b :: m :: bs) with
  | ok p => exact ⟨p.1, p.2, rfl⟩
  | error e =>
    obtain ⟨-, hshort⟩ | ⟨-, hv⟩ | ⟨-, hv, _, _, hm, hrejected⟩ := decode_error_cases hd
    · rw [List.length_cons] at hshort
      omega
    · exact absurd hv hknown
    · obtain ⟨rfl, rfl⟩ := List.cons.inj hm
      refine absurd hrejected (not_regFieldRejected_iff.2 ?_)
      cases check with
      | false => exact .inl rfl
      | true => exact .inr (hreg hv rfl)

/-! ## The ignored `reg` field (42_mov_imm_rm.md R110) -/

/-- With the check off, variant 2 fails by truncation only. -/
theorem unchecked_error_is_truncated {b m : Byte} {bs : List Byte} (hv : variantOf b = some .immRm) {e : DecodeError}
    (h : decode false (b :: m :: bs) = .error e) : e = .truncatedInstruction := by
  obtain ⟨he, -⟩ | ⟨-, hnone⟩ | ⟨-, -, _, _, -, hrejected⟩ := decode_error_cases h
  · exact he
  · rw [hv] at hnone
    cases hnone
  · exact absurd hrejected (not_regFieldRejected_iff.2 (.inl rfl))

/-- With the check off, another `reg` field gives the same instruction but for that field. -/
theorem decode_other_reg_field {b m m' : Byte} {bs rest : List Byte} {i : Instr} (hv : variantOf b = some .immRm)
    (hmod : modField m = modField m') (hrm : rmField m = rmField m')
    (h : decode false (b :: m :: bs) = .ok (i, rest)) :
    ∃ j, decode false (b :: m' :: bs) = .ok (j, rest) ∧ instrLine j = instrLine i ∧ j.length = i.length := by
  rw [decode_immRm hv, decodeMovImmRegMem_ok] at h
  obtain ⟨reg, rm, imm, rfl, hwf, hw, hbytes⟩ := h
  obtain ⟨hm, rfl⟩ := List.cons.inj hbytes
  obtain ⟨hmodBits, -, hrmBits⟩ := eq_modeByte_iff.1 hm
  refine ⟨.movImmRegMem (regField m') rm imm, ?_, rfl, rfl⟩
  rw [decode_immRm hv, decodeMovImmRegMem_ok]
  have hm' : m' = modeByte (regField m') rm := eq_modeByte_iff.2 ⟨hmodBits.trans hmod, rfl, hrmBits.trans hrm⟩
  obtain ⟨hrmwf, -⟩ := wf_movImmRegMem.1 hwf
  exact ⟨_, rm, imm, rfl, wf_movImmRegMem.2 ⟨hrmwf, not_regFieldRejected_iff.2 (.inl rfl)⟩, hw, by rw [← hm']⟩

/-- Settles O10: whatever decodes with one `reg` field decodes with the other, and all that can fail is a truncation. -/
theorem regFieldIgnoredWhenUnchecked : Obligations.RegFieldIgnoredWhenUnchecked := by
  intro b m m' bs hv hmod hrm
  refine ⟨fun i rest h => decode_other_reg_field hv hmod hrm h, fun e h => ?_⟩
  cases hd : decode false (b :: m' :: bs) with
  | ok p =>
    obtain ⟨j, hj, -⟩ := decode_other_reg_field hv hmod.symm hrm.symm hd
    rw [h] at hj
    cases hj
  | error e' => rw [unchecked_error_is_truncated hv h, unchecked_error_is_truncated hv hd]

end Sys2Proof.Machine

/-! # What each meaning does (41_mov_rm_reg.md to 45_mov_acc_mem.md) -/

namespace Sys2Proof.Machine

/-! ## Completion and rejection -/

/-- A commit writes the cursor and the end of the sink (R80). -/
theorem commit_eq (line : Text) (n : Nat) (s : State) :
    s.commit line n = { s with cur := s.cur + n, out := s.out ++ line } := rfl

/-- The `reg` field is rejected when the implementation validates it and it is not `000` (R63). -/
theorem regFieldRejected_iff {check : Bool} {reg : Field3} :
    regFieldRejected check reg = true ↔ check = true ∧ reg ≠ 0b000#3 := by
  simp [regFieldRejected, and_comm]

/-- Variant 2 with its `reg` field accepted commits its line (R110). -/
theorem exec_movImmRegMem_accepted {reg : Field3} {s : State} (h : ¬regFieldRejected s.immRegCheck reg = true)
    (rm : RegMem) (imm : Imm) :
    exec (.movImmRegMem reg rm imm) s =
      .next (s.commit (movImmRegMemLine rm imm) (Instr.movImmRegMem reg rm imm).length) :=
  if_neg h

/-- Variant 2 with its `reg` field rejected takes `MalformedField` (R110). -/
theorem exec_movImmRegMem_rejected {reg : Field3} {s : State} (h : regFieldRejected s.immRegCheck reg = true)
    (rm : RegMem) (imm : Imm) :
    exec (.movImmRegMem reg rm imm) s = .next (s.takeFault .malformedField s.cur) :=
  if_pos h

/-- Every meaning commits the instruction's line and length, or is variant 2 with a rejected `reg` field. -/
theorem exec_cases (i : Instr) (s : State) :
    exec i s = .next (s.commit (instrLine i) i.length) ∨
      (∃ reg rm imm, i = .movImmRegMem reg rm imm ∧ regFieldRejected s.immRegCheck reg = true) ∧
        exec i s = .next (s.takeFault .malformedField s.cur) := by
  cases i with
  | movRegMemReg d w reg rm => exact .inl rfl
  | movImmRegMem reg rm imm =>
    by_cases h : regFieldRejected s.immRegCheck reg = true
    · exact .inr ⟨⟨reg, rm, imm, rfl, h⟩, exec_movImmRegMem_rejected h rm imm⟩
    · exact .inl (exec_movImmRegMem_accepted h rm imm)
  | movImmReg reg imm => exact .inl rfl
  | movMemAcc w a => exact .inl rfl
  | movAccMem w a => exact .inl rfl

/-- The meaning of a well-formed instruction commits its line and length. -/
theorem exec_of_wf {i : Instr} {s : State} (hwf : i.wf s.immRegCheck = true) :
    exec i s = .next (s.commit (instrLine i) i.length) := by
  obtain h | ⟨⟨reg, rm, imm, rfl, hrejected⟩, -⟩ := exec_cases i s
  · exact h
  · obtain ⟨-, haccepted⟩ := wf_movImmRegMem.1 hwf
    exact absurd hrejected haccepted

/-! ## Pieces of a line -/

/-- The frame of a line (R84). -/
theorem lineText_eq (dst src : Text) : lineText dst src = "mov ".toList ++ dst ++ ", ".toList ++ src ++ ['\n'] := rfl

theorem newline_toList : "\n".toList = ['\n'] := rfl

theorem comma_bracket_toList : ", [".toList = ", ".toList ++ ['['] := rfl

theorem bracket_newline_toList : "]\n".toList = [']', '\n'] := rfl

theorem mov_bracket_toList : "mov [".toList = "mov ".toList ++ ['['] := rfl

theorem bracket_comma_toList : "], ".toList = ']' :: ", ".toList := rfl

/-! ## The five meanings, written out -/

/-- Settles O26: one direction at a time, the line is the one written out. -/
theorem movRegMemRegCompletes : Obligations.MovRegMemRegCompletes := by
  intro d w reg rm s
  rw [length_dispBytes]
  cases d with
  | regIsSource => rfl
  | regIsDest => rfl

/-- Settles O27: the `reg` field is not rejected, and the qualifier is the one of the immediate's width. -/
theorem movImmRegMemCompletes : Obligations.MovImmRegMemCompletes := by
  intro reg rm imm s haccept
  have hline : movImmRegMemLine rm imm = "mov ".toList ++ rmText imm.width rm ++ ", ".toList ++
      (if imm.width = .byte then "byte ".toList else "word ".toList) ++ dec (immValue imm) ++ "\n".toList := by
    rw [← qualifier_eq, newline_toList]
    simp only [movImmRegMemLine, lineText_eq, List.append_assoc]
  rw [exec_movImmRegMem_accepted (not_regFieldRejected_iff.2 haccept), hline, length_dispBytes, length_immBytes]
  rfl

/-- Settles O28, by the rejecting case of the meaning. -/
theorem movImmRegMemRejects : Obligations.MovImmRegMemRejects :=
  fun _ rm imm _ hcheck hreg => exec_movImmRegMem_rejected (regFieldRejected_iff.2 ⟨hcheck, hreg⟩) rm imm

/-- Settles O29: the line is the one written out. -/
theorem movImmRegCompletes : Obligations.MovImmRegCompletes := by
  intro reg imm s
  rw [length_immBytes]
  rfl

/-- Settles O30: the line is the one written out, with the brackets of its address beside their neighbours. -/
theorem movMemAccCompletes : Obligations.MovMemAccCompletes := by
  intro w a s
  have hline : movMemAccLine w a =
      "mov ".toList ++ regName 0b000#3 w ++ ", [".toList ++ dec a.toNat ++ "]\n".toList := by
    simp only [movMemAccLine, lineText_eq, accName, addrText, bracketed, comma_bracket_toList, bracket_newline_toList,
      List.append_assoc, List.cons_append, List.nil_append]
  rw [← hline]
  rfl

/-- Settles O31: the line is the one written out, with the brackets of its address beside their neighbours. -/
theorem movAccMemCompletes : Obligations.MovAccMemCompletes := by
  intro w a s
  have hline : movAccMemLine w a =
      "mov [".toList ++ dec a.toNat ++ "], ".toList ++ regName 0b000#3 w ++ "\n".toList := by
    simp only [movAccMemLine, lineText_eq, accName, addrText, bracketed, mov_bracket_toList, bracket_comma_toList,
      newline_toList, List.append_assoc, List.cons_append, List.nil_append]
  rw [← hline]
  rfl

/-- Settles O32: a commit and a fault entry, field by field. -/
theorem instructionFrame : Obligations.InstructionFrame := by
  intro i s t h
  obtain ⟨hlen, -⟩ := encodedLength_statement i
  obtain hx | ⟨⟨reg, rm, imm, hi, hrejected⟩, hx⟩ := exec_cases i s
  · cases hx.symm.trans h
    exact ⟨fun _ => rfl, rfl, rfl, rfl, rfl, .inl ⟨rfl, rfl, rfl, by rw [commit_cur, hlen], rfl⟩⟩
  · cases hx.symm.trans h
    exact ⟨fun _ => rfl, rfl, rfl, rfl, rfl,
      .inr ⟨⟨reg, rm, imm, hi, regFieldRejected_iff.1 hrejected⟩, rfl, rfl, rfl, rfl, rfl⟩⟩

end Sys2Proof.Machine

/-! # What a step does (40_dispatch_and_step.md section 1) -/

namespace Sys2Proof.Machine

/-! ## The instruction that stands at the cursor -/

/-- The image holds the encoding of this well-formed instruction at the cursor, all of it before the end (R80, R81). -/
structure State.HoldsAtCursor (s : State) (i : Instr) : Prop where
  wf : i.wf s.immRegCheck = true
  inside : s.cur + i.length ≤ s.len
  bytes : s.imem.bytes s.cur i.length = encode i

/-- Byte by byte, the instruction at the cursor. -/
theorem State.HoldsAtCursor.of_reads {s : State} {i : Instr} (hwf : i.wf s.immRegCheck = true)
    (hinside : s.cur + i.length ≤ s.len)
    (hreads : ∀ k, k < (encode i).length → (encode i)[k]? = some (s.imem.read (s.cur + k))) : s.HoldsAtCursor i := by
  obtain ⟨hlen, -⟩ := encodedLength_statement i
  exact ⟨hwf, hinside, by rw [← hlen, Memory.bytes_eq _ hreads]⟩

/-- A stream that begins with an encoding has that instruction at the cursor, and the rest after it. -/
theorem State.holdsAtCursor_of_stream {s : State} {i : Instr} {rest : List Byte} (hwf : i.wf s.immRegCheck = true)
    (h : s.stream = encode i ++ rest) : s.HoldsAtCursor i ∧ (s.advance i.length).stream = rest := by
  obtain ⟨hlen, hlo, -⟩ := encodedLength_statement i
  have htotal := congrArg List.length h
  rw [length_stream, List.length_append, hlen] at htotal
  have hinside : s.cur + i.length ≤ s.len := by omega
  rw [stream_advance hinside] at h
  obtain ⟨hbytes, hrest⟩ := List.append_inj h (by rw [Memory.length_bytes, hlen])
  exact ⟨⟨hwf, hinside, hbytes⟩, hrest⟩

/-- What decodes at the cursor stands there, and the bytes left are those after it. -/
theorem State.holdsAtCursor_of_decode {s : State} {i : Instr} {rest : List Byte}
    (h : s.decodeAtCursor = .ok (i, rest)) : s.HoldsAtCursor i ∧ (s.advance i.length).stream = rest := by
  obtain ⟨hwf, hstream⟩ := decode_ok.1 h
  exact holdsAtCursor_of_stream hwf hstream

/-- The step on the instruction at the cursor commits its line and length (R80). -/
theorem step_of_holds {s : State} {i : Instr} (hrun : s.status = .run) (h : s.HoldsAtCursor i) :
    step s = .next (s.commit (instrLine i) i.length) := by
  obtain ⟨hlen, -⟩ := encodedLength_statement i
  obtain ⟨hwf, hinside, hbytes⟩ := h
  rw [step_of_encode_at_cursor hrun hwf (hlen.symm ▸ hinside) (hlen.symm ▸ hbytes), exec_of_wf hwf]

/-- Everything a step that gives a next state has done: it has ended the call, taken a fault, or committed the
instruction at the cursor (R80). -/
theorem step_outcomes {s t : State} (h : step s = .next t) :
    s.status = .run ∧
      ((s.cur = s.len ∧ t = s.finish) ∨ (s.cur < s.len ∧ ∃ e, t = s.takeFault e s.cur) ∨
        ∃ i, s.HoldsAtCursor i ∧ t = s.commit (instrLine i) i.length) := by
  obtain ⟨hrun, hend | ⟨hlt, e, -, rfl⟩ | ⟨-, i, rest, hd, -⟩⟩ := step_next_cases h
  · exact ⟨hrun, .inl hend⟩
  · exact ⟨hrun, .inr (.inl ⟨hlt, e, rfl⟩)⟩
  · obtain ⟨hholds, -⟩ := State.holdsAtCursor_of_decode hd
    cases (step_of_holds hrun hholds).symm.trans h
    exact ⟨hrun, .inr (.inr ⟨i, hholds, rfl⟩)⟩

/-! ## Which step is taken -/

/-- Settles O33, by the step in `RUN` with bytes ahead. -/
theorem stepRunsDecodedInstruction : Obligations.StepRunsDecodedInstruction := by
  intro s i rest hrun hlt hd
  have hdecode : s.decodeAtCursor = .ok (i, rest) := hd
  rw [step_of_run hrun hlt, hdecode]

/-- Settles O34: the bytes read are the encoding, which decodes to the instruction in front of any bytes. -/
theorem stepExecutesInstructionAtCursor : Obligations.StepExecutesInstructionAtCursor := by
  intro s i hrun hwf hinside hreads
  exact step_of_encode_at_cursor hrun hwf hinside (Memory.bytes_eq _ hreads)

/-- The end of the stream between instructions ends the call (R80). -/
theorem step_at_end {s : State} (hrun : s.status = .run) (hend : s.cur = s.len) : step s = .next s.finish := by
  simp [step, hrun, hend]

/-- Settles O35, by the test that the step makes first. -/
theorem stepEndsAtEndOfStream : Obligations.StepEndsAtEndOfStream :=
  fun _ hrun hend => step_at_end hrun hend

/-- Settles O36: a next state comes from `RUN` only, and the two ends answer by name. -/
theorem noStepAfterTheEnd : Obligations.NoStepAfterTheEnd := by
  intro s hended
  refine ⟨fun t h => ?_, fun hdone => ?_, fun hfault => ?_⟩
  · obtain ⟨hrun, -⟩ := step_next_cases h
    exact hended hrun
  · simp [step, hdone]
  · simp [step, hfault]

/-- Settles O37, by the test that the step makes second. -/
theorem cursorPastTheEndStops : Obligations.CursorPastTheEndStops := by
  intro s hrun hpast
  simp [step, hrun, hpast, hpast.ne']

/-! ## What every step keeps -/

/-- Fault entry names a cause (R160). -/
theorem causeOf_ne_none (e : DecodeError) : causeOf e ≠ .none := by
  cases e <;> decide

/-- Settles O49: the codes by their definition, and every error kind names a cause. -/
theorem causeCodes : Obligations.CauseCodes :=
  ⟨rfl, rfl, rfl, rfl, causeOf_ne_none⟩

/-- Settles O45: a commit writes one line, and the two ends write nothing. -/
theorem oneLinePerInstruction : Obligations.OneLinePerInstruction := by
  intro s t h
  obtain ⟨hrun, ⟨-, rfl⟩ | ⟨-, e, rfl⟩ | ⟨i, ⟨hwf, hinside, hbytes⟩, rfl⟩⟩ := step_outcomes h
  · exact .inr ⟨nofun, rfl, rfl⟩
  · exact .inr ⟨nofun, rfl, rfl⟩
  · exact .inl ⟨hrun, i, hwf, hbytes, rfl, hinside, rfl⟩

/-- Settles O46: of the three things a step can do, only fault entry ends in `FAULT`. -/
theorem faultEntryIsPrecise : Obligations.FaultEntryIsPrecise := by
  intro s t h hfault
  obtain ⟨hrun, ⟨-, rfl⟩ | ⟨hlt, e, rfl⟩ | ⟨i, -, rfl⟩⟩ := step_outcomes h
  · cases hfault
  · exact ⟨hrun, hlt, causeOf_ne_none e, rfl⟩
  · cases hrun.symm.trans hfault

/-- Settles O47, for each of the three things a step can do. -/
theorem stepFrame : Obligations.StepFrame := by
  intro s t h
  obtain ⟨-, ⟨-, rfl⟩ | ⟨-, e, rfl⟩ | ⟨i, -, rfl⟩⟩ := step_outcomes h
  · exact ⟨fun _ => rfl, rfl, rfl, rfl, rfl, List.prefix_rfl, le_rfl, fun _ => ⟨rfl, rfl⟩⟩
  · exact ⟨fun _ => rfl, rfl, rfl, rfl, rfl, List.prefix_rfl, le_rfl, fun hne => absurd rfl hne⟩
  · exact ⟨fun _ => rfl, rfl, rfl, rfl, rfl, List.prefix_append _ _, Nat.le_add_right _ _, fun _ => ⟨rfl, rfl⟩⟩

/-- Settles O48: the instruction that the first step consumed stands at the other cursor too. -/
theorem lineDependsOnItsBytesOnly : Obligations.LineDependsOnItsBytesOnly := by
  intro s s' t _ hrun' hcheck h ht hinside hreads
  obtain ⟨-, ⟨-, rfl⟩ | ⟨-, e, rfl⟩ | ⟨i, ⟨hwf, -, hbytes⟩, rfl⟩⟩ := step_outcomes h
  · cases ht
  · cases ht
  · obtain ⟨hlen, -⟩ := encodedLength_statement i
    rw [commit_cur, Nat.add_sub_cancel_left] at hinside hreads ⊢
    refine ⟨instrLine i, rfl, step_of_holds hrun' (.of_reads (hcheck ▸ hwf) hinside fun k hk => ?_)⟩
    rw [hlen] at hk
    rw [hreads k hk, ← hbytes, Memory.getElem?_bytes _ hk]

end Sys2Proof.Machine

/-! # Invariants (10_state.md sections 3, 6 and 7) -/

namespace Sys2Proof.Machine

/-- Settles O51: reset is the start of a call on the empty image. -/
theorem resetInvariant : Obligations.ResetInvariant :=
  State.start_inv Config.immRegCheck [] []

/-- Reading back an image bound at the start of a call (R30, R190). -/
theorem State.read_start (check : Bool) {image : List Byte} (out0 : Text) {k : Nat} (hk : k < image.length) :
    image[k]? = some ((State.start check image out0).imem.read k) := by
  have h := Memory.read_writeBytes (m := []) rfl 0 image hk
  rw [Nat.zero_add] at h
  rw [List.getElem?_eq_getElem hk, ← h]
  rfl

/-- Settles O52: the image is read back from index 0 on, and the stream is all of it. -/
theorem startOfCall : Obligations.StartOfCall := by
  intro check image out0 s
  have hread (k : Nat) (hk : k < image.length) : image[k]? = some (s.imem.read k) := State.read_start check out0 hk
  have hstream : s.stream = image := by
    refine Memory.bytes_eq s.imem fun k hk => ?_
    rw [hread k hk]
    exact congrArg (fun a => some (s.imem.read a)) (Nat.zero_add k).symm
  exact ⟨rfl, rfl, rfl, rfl, rfl, rfl, rfl, hstream, hread, State.start_inv check image out0⟩

/-! ## The state invariant -/

section Invariant
variable {s : State} (h : s.Inv)
include h

/-- Fault entry keeps the invariant: it names its cause and records the cursor, which is inside the image (R26). -/
theorem State.Inv.takeFault (hlt : s.cur < s.len) (e : DecodeError) : (s.takeFault e s.cur).Inv where
  memory_wf := h.memory_wf
  memory_below := h.memory_below
  cur_le_len := h.cur_le_len
  out0_kept := h.out0_kept
  done_at_end := nofun
  fault_named := fun _ => ⟨causeOf_ne_none e, rfl, hlt⟩
  run_clean := nofun

variable (hrun : s.status = .run)
include hrun

/-- The end of the call keeps the invariant: the cursor is at the end and no fault was taken (R26). -/
theorem State.Inv.finish (hend : s.cur = s.len) : s.finish.Inv where
  memory_wf := h.memory_wf
  memory_below := h.memory_below
  cur_le_len := h.cur_le_len
  out0_kept := h.out0_kept
  done_at_end := fun _ => ⟨hend, h.run_clean hrun⟩
  fault_named := nofun
  run_clean := nofun

/-- A commit that stays inside the image keeps the invariant (R26). -/
theorem State.Inv.commit (line : Text) {n : Nat} (hinside : s.cur + n ≤ s.len) : (s.commit line n).Inv where
  memory_wf := h.memory_wf
  memory_below := h.memory_below
  cur_le_len := hinside
  out0_kept := h.out0_kept.trans (List.prefix_append _ _)
  done_at_end := fun hdone => nomatch hrun.symm.trans hdone
  fault_named := fun hfault => nomatch hrun.symm.trans hfault
  run_clean := h.run_clean

end Invariant

/-- Settles O53: the end of the call, fault entry and a commit each keep the invariant. -/
theorem stepKeepsInvariant : Obligations.StepKeepsInvariant := by
  intro s t hinv h
  obtain ⟨hrun, ⟨hend, rfl⟩ | ⟨hlt, e, rfl⟩ | ⟨i, hholds, rfl⟩⟩ := step_outcomes h
  · exact hinv.finish hrun hend
  · exact hinv.takeFault hlt e
  · exact hinv.commit hrun (instrLine i) hholds.inside

/-! ## The sink as a listing -/

/-- Committing the instruction at the cursor puts it at the end of the listing (R13). -/
theorem State.Listed.commit {s : State} {i : Instr} (h : s.Listed) (hholds : s.HoldsAtCursor i) :
    (s.commit (instrLine i) i.length).Listed := by
  obtain ⟨is, hwf, hbytes, hout⟩ := h
  refine ⟨is ++ [i], fun j hj => ?_, ?_, ?_⟩
  · obtain hj | hj := List.mem_append.1 hj
    · exact hwf j hj
    · rw [List.mem_singleton.1 hj]
      exact hholds.wf
  · rw [commit_imem, commit_cur, Memory.bytes_add, Nat.zero_add, hbytes, hholds.bytes, List.flatMap_append,
      List.flatMap_singleton]
  · rw [commit_out, commit_out0, hout, List.flatMap_append, List.flatMap_singleton, List.append_assoc]

/-- Settles O54: a commit makes the listing longer by one instruction, and the two ends leave the cursor and the sink. -/
theorem stepKeepsListing : Obligations.StepKeepsListing := by
  intro s t hlisted h
  obtain ⟨-, ⟨-, rfl⟩ | ⟨-, e, rfl⟩ | ⟨i, hholds, rfl⟩⟩ := step_outcomes h
  · exact hlisted
  · exact hlisted
  · exact hlisted.commit hholds

end Sys2Proof.Machine

/-! # Whole calls (40_dispatch_and_step.md section 3) -/

namespace Sys2Proof.Machine

/-! ## The scan, by what decodes at the head of the bytes (R85) -/

section Scan
variable {check : Bool} {bs rest : List Byte} {i : Instr} {e : DecodeError}

@[simp] theorem scan_nil (fuel : Nat) : scan check fuel [] = ⟨[], 0, 0, none⟩ := by
  cases fuel <;> rfl

theorem scan_of_error {b : Byte} (h : decode check (b :: bs) = .error e) (fuel : Nat) :
    scan check (fuel + 1) (b :: bs) = ⟨[], 0, 0, some e⟩ := by
  simp only [scan, h]

theorem scan_of_ok (h : decode check bs = .ok (i, rest)) (fuel : Nat) :
    scan check (fuel + 1) bs =
      ⟨instrLine i ++ (scan check fuel rest).text, i.length + (scan check fuel rest).bytes,
        (scan check fuel rest).count + 1, (scan check fuel rest).error⟩ := by
  cases bs with
  | nil => cases h
  | cons b bs => simp only [scan, h]

end Scan

/-- A scan finds at most one instruction for every two bytes (R60, R85). -/
theorem two_mul_count_scan_le (check : Bool) (fuel : Nat) (bs : List Byte) :
    2 * (scan check fuel bs).count ≤ bs.length := by
  induction fuel generalizing bs with
  | zero => exact Nat.zero_le _
  | succ fuel ih =>
    cases bs with
    | nil => exact Nat.zero_le _
    | cons b bs =>
      cases hd : decode check (b :: bs) with
      | error e => rw [scan_of_error hd]; exact Nat.zero_le _
      | ok p =>
        obtain ⟨i, rest⟩ := p
        obtain ⟨hlen, hlo, -⟩ := noReadAhead check _ rest i hd
        have := ih rest
        simp only [scan_of_ok hd]
        omega

/-! ## The state in which a call ends -/

/-- The end of a call that has nothing more to read is `DONE` (R80). -/
theorem State.endOf_finish (s : State) : s.endOf ⟨[], 0, 0, none⟩ = s.finish := by
  simp [endOf, finish]

/-- The end of a call that decodes nothing more is `FAULT` (R167). -/
theorem State.endOf_takeFault (s : State) (e : DecodeError) : s.endOf ⟨[], 0, 0, some e⟩ = s.takeFault e s.cur := by
  simp [endOf, takeFault]

/-- The end of a call after a commit is the end of the call whose scan finds the committed line first (R85). -/
theorem State.endOf_commit (s : State) (line : Text) (n k : Nat) (r : Scan) :
    (s.commit line n).endOf r = s.endOf ⟨line ++ r.text, n + r.bytes, k, r.error⟩ := by
  obtain ⟨text, bytes, count, error⟩ := r
  cases error <;> simp [endOf, commit_eq, Nat.add_assoc]

/-- At the end of the stream one step ends the call, as the scan of no bytes says (R80, R85). -/
theorem runSteps_scan_at_end {s : State} (hrun : s.status = .run) (hend : s.cur = s.len) (fuel : Nat) :
    runSteps ((scan s.immRegCheck fuel s.stream).count + 1) s =
      .next (s.endOf (scan s.immRegCheck fuel s.stream)) := by
  rw [State.stream_nil hend.ge, scan_nil, runSteps_succ (step_at_end hrun hend), State.endOf_finish]
  rfl

/-- With `fuel` for the bytes ahead, a call in progress ends in the state that their scan gives, one step after the last
instruction found. -/
theorem runSteps_scan {fuel : Nat} {s : State} (hrun : s.status = .run) (hle : s.cur ≤ s.len)
    (hfuel : s.len - s.cur ≤ fuel) :
    runSteps ((scan s.immRegCheck fuel s.stream).count + 1) s =
      .next (s.endOf (scan s.immRegCheck fuel s.stream)) := by
  induction fuel generalizing s with
  | zero => exact runSteps_scan_at_end hrun (by omega) 0
  | succ fuel ih =>
    obtain hend | hlt := hle.eq_or_lt
    · exact runSteps_scan_at_end hrun hend (fuel + 1)
    · cases hd : s.decodeAtCursor with
      | error e =>
        rw [runSteps_succ (step_of_decode_error hrun hlt hd)]
        rw [State.decodeAtCursor, State.stream_cons hlt] at hd
        rw [State.stream_cons hlt, scan_of_error hd, State.endOf_takeFault]
        rfl
      | ok p =>
        obtain ⟨i, rest⟩ := p
        obtain ⟨hholds, rfl⟩ := State.holdsAtCursor_of_decode hd
        obtain ⟨-, hlo, -⟩ := encodedLength_statement i
        have hrest := ih (s := s.commit (instrLine i) i.length) hrun hholds.inside
          (by rw [commit_len, commit_cur]; omega)
        rw [scan_of_ok hd, runSteps_succ (step_of_holds hrun hholds), ← State.endOf_commit]
        exact hrest

/-- Settles O57, by induction on the bytes ahead. -/
theorem callIsTheScan : Obligations.CallIsTheScan :=
  fun _ hrun hle => runSteps_scan hrun hle le_rfl

/-- A call ends in `DONE` or in `FAULT` (R14). -/
theorem State.endOf_status (s : State) (r : Scan) : (s.endOf r).status = .done ∨ (s.endOf r).status = .fault := by
  unfold endOf
  cases r.error with
  | none => exact .inl rfl
  | some e => exact .inr rfl

/-- Settles O56: the run is the scan's, which finds at most one instruction for every two bytes ahead. -/
theorem everyCallEnds : Obligations.EveryCallEnds := by
  intro s hrun hle
  have hcount := two_mul_count_scan_le s.immRegCheck (s.len - s.cur) s.stream
  rw [State.length_stream] at hcount
  exact ⟨_, _, by omega, callIsTheScan s hrun hle, State.endOf_status s _⟩

/-! ## The listing of well-formed code -/

/-- Settles O58, by induction on the instructions ahead: the first one is committed, and the stream then begins with the
others. -/
theorem wellFormedCodeIsListed : Obligations.WellFormedCodeIsListed := by
  intro s is rest hrun hle hwf hstream
  induction is generalizing s with
  | nil =>
    have hlength := congrArg List.length hstream
    rw [State.length_stream, List.flatMap_nil, List.nil_append] at hlength
    have hcur : s.len - rest.length = s.cur := by omega
    simp [hcur]
  | cons i is ih =>
    rw [List.flatMap_cons, List.append_assoc] at hstream
    obtain ⟨hholds, htail⟩ := State.holdsAtCursor_of_stream (hwf i List.mem_cons_self) hstream
    rw [List.length_cons, runSteps_succ (step_of_holds hrun hholds),
      ih (s.commit (instrLine i) i.length) hrun hholds.inside (fun j hj => hwf j (List.mem_cons_of_mem i hj)) htail]
    simp [commit_eq]

end Sys2Proof.Machine

/-! # Decimal text (44_operand_rendering.md section 3) -/

namespace Sys2Proof.Machine

/-! ## Natural numbers -/

theorem decNat_of_lt_ten {n : Nat} (h : n < 10) : decNat n = [Nat.digitChar n] := by
  rw [decNat, decDigits, if_pos h]

theorem decNat_of_ten_le {n : Nat} (h : 10 ≤ n) : decNat n = decNat (n / 10) ++ decNat (n % 10) := by
  rw [decNat_of_lt_ten (Nat.mod_lt n (by decide)), decNat, decDigits, if_neg h.not_gt, decDigits_fuel (by omega)]

/-- `decNat` gives the library's decimal digits. -/
theorem decNat_eq_toDigits (n : Nat) : decNat n = Nat.toDigits 10 n := by
  induction n using Nat.strongRecOn with
  | ind n ih =>
    obtain hlt | hge := Nat.lt_or_ge n 10
    · rw [decNat_of_lt_ten hlt, Nat.toDigits_of_lt_base hlt]
    · rw [decNat_of_ten_le hge, decNat_of_lt_ten (Nat.mod_lt n (by decide)), ih (n / 10) (by omega),
        Nat.toDigits_of_base_le (by decide) hge]

theorem decNat_injective {m n : Nat} (h : decNat m = decNat n) : m = n := by
  rw [decNat_eq_toDigits, decNat_eq_toDigits] at h
  rw [← Nat.ofDigitChars_ten_toDigits (n := m), h, Nat.ofDigitChars_ten_toDigits]

theorem isDigit_of_mem_decNat {n : Nat} {c : Char} (h : c ∈ decNat n) : c.isDigit = true := by
  rw [decNat_eq_toDigits] at h
  exact Nat.isDigit_of_mem_toDigits (by decide) (by decide) h

/-- A decimal text begins with a digit. -/
theorem exists_digit_cons_decNat (n : Nat) : ∃ c ds, decNat n = c :: ds ∧ c.isDigit = true := by
  cases h : decNat n with
  | nil => exact absurd ((decNat_eq_toDigits n).symm.trans h) Nat.toDigits_ne_nil
  | cons c ds => exact ⟨c, ds, rfl, isDigit_of_mem_decNat (n := n) (by rw [h]; exact List.mem_cons_self)⟩

/-- A number below `10 ^ k` has one to `k` digits. -/
theorem length_decNat_le {n k : Nat} (hk : 0 < k) (h : n < 10 ^ k) : (decNat n).length ≤ k := by
  rw [decNat_eq_toDigits]
  exact (Nat.length_toDigits_le_iff (by decide) hk).2 h

theorem length_decNat_pos (n : Nat) : 1 ≤ (decNat n).length := by
  rw [decNat_eq_toDigits]
  exact Nat.length_toDigits_pos

/-! ## Integers -/

/-- The first equation of `Dec` (R135). -/
theorem dec_of_neg {n : Int} (h : n < 0) : dec n = '-' :: dec (-n) := by
  obtain ⟨k, rfl⟩ := Int.eq_negSucc_of_lt_zero h
  rfl

/-- A number that is not negative is rendered by its magnitude. -/
theorem dec_of_nonneg {n : Int} (h : 0 ≤ n) : dec n = decNat n.natAbs := by
  obtain ⟨k, rfl⟩ := Int.eq_ofNat_of_zero_le h
  rfl

/-- The digits 0 to 9 (R135). -/
theorem digitChar_eq_getD : ∀ n < 10, Nat.digitChar n = "0123456789".toList.getD n ' ' := by decide

/-- Settles O17, by the sign and by whether the number has one digit or more. -/
theorem decimalEquations : Obligations.DecimalEquations := by
  refine ⟨fun n => dec_of_neg, fun n h => ?_, fun n h => ?_⟩
  · rw [dec_natCast, decNat_of_lt_ten (by omega), digitChar_eq_getD n (by omega)]
  · rw [dec_natCast, decNat_of_ten_le h]
    rfl

/-- The text of a negative number begins with a sign, and no text of a natural number does. -/
theorem dec_ne_of_neg_of_nonneg {m n : Int} (hm : m < 0) (hn : 0 ≤ n) : dec m ≠ dec n := by
  rw [dec_of_neg hm, dec_of_nonneg hn]
  obtain ⟨c, ds, hds, hdigit⟩ := exists_digit_cons_decNat n.natAbs
  rw [hds]
  intro h
  obtain ⟨rfl, -⟩ := List.cons.inj h
  exact absurd hdigit (by decide)

theorem dec_injective {m n : Int} (h : dec m = dec n) : m = n := by
  obtain hm | hm := lt_or_ge m 0 <;> obtain hn | hn := lt_or_ge n 0
  · rw [dec_of_neg hm, dec_of_neg hn, dec_of_nonneg (n := -m) (by omega), dec_of_nonneg (n := -n) (by omega)] at h
    obtain ⟨-, hdigits⟩ := List.cons.inj h
    have := decNat_injective hdigits
    omega
  · exact absurd h (dec_ne_of_neg_of_nonneg hm hn)
  · exact absurd h.symm (dec_ne_of_neg_of_nonneg hn hm)
  · rw [dec_of_nonneg hm, dec_of_nonneg hn] at h
    have := decNat_injective h
    omega

end Sys2Proof.Machine

/-! # The output grammar (30_encoding.md section 7) -/

namespace Sys2Proof.Machine

/-! ## Numbers -/

theorem digitChar_mem : ∀ n < 10, Nat.digitChar n ∈ "0123456789".toList := by decide

theorem digitChar_mem_of_pos : ∀ n < 10, 0 < n → Nat.digitChar n ∈ "123456789".toList := by decide

/-- The text of a positive number has no leading zero (R66, R135). -/
theorem isPositiveInteger_decNat {n : Nat} (h : 0 < n) : IsPositiveInteger (decNat n) := by
  induction n using Nat.strongRecOn with
  | ind n ih =>
    obtain hlt | hge := Nat.lt_or_ge n 10
    · exact ⟨_, [], decNat_of_lt_ten hlt, digitChar_mem_of_pos n hlt h, nofun⟩
    · have hmod : n % 10 < 10 := Nat.mod_lt n (by decide)
      obtain ⟨c, ds, hds, hc, htail⟩ := ih (n / 10) (by omega) (by omega)
      refine ⟨c, ds ++ [Nat.digitChar (n % 10)], ?_, hc, fun x hx => ?_⟩
      · rw [decNat_of_ten_le hge, decNat_of_lt_ten hmod, hds, List.cons_append]
      · obtain hx | hx := List.mem_append.1 hx
        · exact htail x hx
        · rw [List.mem_singleton.1 hx]
          exact digitChar_mem _ hmod

theorem isPositiveInteger_dec {n : Int} (h : 0 < n) : IsPositiveInteger (dec n) := by
  rw [dec_of_nonneg h.le]
  exact isPositiveInteger_decNat (by omega)

theorem isInteger_dec {n : Int} (h : 0 ≤ n) : IsInteger (dec n) := by
  obtain rfl | hpos := h.eq_or_lt
  · exact .inl rfl
  · exact .inr (isPositiveInteger_dec hpos)

theorem isSignedInteger_dec (n : Int) : IsSignedInteger (dec n) := by
  obtain hneg | hnonneg := lt_or_ge n 0
  · exact .inr ⟨dec (-n), isPositiveInteger_dec (by omega), dec_of_neg hneg⟩
  · exact .inl (isInteger_dec hnonneg)

/-- Settles O18: the digits give the number back, and the text of a positive number begins with one of 1 to 9. -/
theorem decimalTextIsFaithful : Obligations.DecimalTextIsFaithful := by
  refine ⟨fun m n => dec_injective, fun n h => ?_⟩
  obtain hneg | rfl | hpos := lt_trichotomy n 0
  · rw [dec_of_neg hneg] at h
    exact absurd h (by simp)
  · rfl
  · obtain ⟨c, ds, hds, hc, -⟩ := isPositiveInteger_dec hpos
    rw [hds] at h
    obtain rfl : c = '0' := Option.some.inj h
    exact absurd hc (by decide)

/-! ## Operands as they are printed (R65) -/

/-- The text of a printed operand (R130 to R142). -/
def Operand.text : Operand → Text
  | .reg w r => regName r w
  | .direct a => addrText a
  | .based rm disp => bracketed (baseText rm ++ dispText disp)
  | .imm none v => dec v
  | .imm (some w) v => qualifier w ++ dec v

/-- A register-or-memory operand is printed as its printed form says. -/
theorem text_rmOperand (w : Width) (rm : RegMem) : (rmOperand w rm).text = rmText w rm := by
  cases rm with
  | base rm => exact congrArg bracketed (List.append_nil (baseText rm))
  | _ => rfl

/-- The line of an instruction is that of its printed operands (R84). -/
theorem instrLine_eq (i : Instr) : instrLine i = lineText (instrOperands i).1.text (instrOperands i).2.text := by
  cases i with
  | movRegMemReg d w reg rm =>
    have hrm := text_rmOperand w rm
    cases d with
    | regIsSource => exact congrArg (lineText · (regName reg w)) hrm.symm
    | regIsDest => exact congrArg (lineText (regName reg w)) hrm.symm
  | movImmRegMem reg rm imm => exact congrArg (lineText · _) (text_rmOperand imm.width rm).symm
  | movImmReg reg imm => rfl
  | movMemAcc w a => rfl
  | movAccMem w a => rfl

/-! ## Operands are sentences -/

theorem isRegOrMem_regName (r : Field3) (w : Width) : IsRegOrMem (regName r w) :=
  .inl (registerDecodeIsTotal r w)

theorem isRegOrMem_bracketed {a : Text} (h : IsAddrExpr a) : IsRegOrMem (bracketed a) :=
  .inr ⟨a, h, rfl⟩

theorem isBase_baseText : ∀ rm : Field3, IsBase (baseText rm) := by
  unfold IsBase
  decide

/-- A base expression with its displacement is an address expression (R66, R133). -/
theorem isAddrExpr_based (rm : Field3) (disp : Int) : IsAddrExpr (baseText rm ++ dispText disp) := by
  obtain hneg | rfl | hpos := lt_trichotomy disp 0
  · refine .inr (.inr ⟨_, dec (-disp), isBase_baseText rm, isPositiveInteger_dec (by omega), .inr ?_⟩)
    rw [dispText_of_neg hneg, List.append_assoc]
  · rw [dispText_zero, List.append_nil]
    exact .inr (.inl (isBase_baseText rm))
  · refine .inr (.inr ⟨_, dec disp, isBase_baseText rm, isPositiveInteger_dec hpos, .inl ?_⟩)
    rw [dispText_of_pos hpos, List.append_assoc]

theorem isRegOrMem_rmText (w : Width) (rm : RegMem) : IsRegOrMem (rmText w rm) := by
  rw [← text_rmOperand]
  cases rm with
  | reg r => exact isRegOrMem_regName r w
  | direct a => exact isRegOrMem_bracketed (.inl (isInteger_dec (Int.natCast_nonneg _)))
  | base rm => exact isRegOrMem_bracketed (isAddrExpr_based rm 0)
  | disp8 rm v => exact isRegOrMem_bracketed (isAddrExpr_based rm (sext16 v))
  | disp16 rm u => exact isRegOrMem_bracketed (isAddrExpr_based rm (signed16 u))

/-- Every printed operand may stand as a source (R66). -/
theorem isRegOrMemOrImm_text (o : Operand) : IsRegOrMemOrImm o.text := by
  cases o with
  | reg w r => exact .inl (isRegOrMem_regName r w)
  | direct a => exact .inl (isRegOrMem_rmText .byte (.direct a))
  | based rm disp => exact .inl (isRegOrMem_bracketed (isAddrExpr_based rm disp))
  | imm qual v =>
    cases qual with
    | none => exact .inr (.inl (isSignedInteger_dec v))
    | some w =>
      refine .inr (.inr ⟨dec v, isSignedInteger_dec v, ?_⟩)
      cases w with
      | byte => exact .inl rfl
      | word => exact .inr rfl

/-- The destination of an instruction is a register or memory (R66). -/
theorem isRegOrMem_destination (i : Instr) : IsRegOrMem (instrOperands i).1.text := by
  cases i with
  | movRegMemReg d w reg rm =>
    cases d with
    | regIsSource => exact text_rmOperand w rm ▸ isRegOrMem_rmText w rm
    | regIsDest => exact isRegOrMem_regName reg w
  | movImmRegMem reg rm imm => exact text_rmOperand imm.width rm ▸ isRegOrMem_rmText imm.width rm
  | movImmReg reg imm => exact isRegOrMem_regName reg imm.width
  | movMemAcc w a => exact isRegOrMem_regName 0b000#3 w
  | movAccMem w a => exact isRegOrMem_rmText w (.direct a)

/-- Settles O21: the destination is a register or memory, and every printed operand may be a source. -/
theorem linesFollowTheGrammar : Obligations.LinesFollowTheGrammar :=
  fun i => ⟨_, _, isRegOrMem_destination i, isRegOrMemOrImm_text _, instrLine_eq i⟩

/-! ## The characters of a sentence (R67) -/

/-- The characters of an operand: those of a line but the comma. -/
def operandChars : Text := lineChars.erase ','

theorem IsPositiveInteger.subset {t : Text} (h : IsPositiveInteger t) : t ⊆ operandChars := by
  obtain ⟨c, ds, rfl, hc, hds⟩ := h
  have hfirst : "123456789".toList ⊆ operandChars := by decide
  have hrest : "0123456789".toList ⊆ operandChars := by decide
  exact List.cons_subset.2 ⟨hfirst hc, fun x hx => hrest (hds x hx)⟩

theorem IsInteger.subset {t : Text} (h : IsInteger t) : t ⊆ operandChars := by
  obtain rfl | h := h
  · decide
  · exact h.subset

theorem IsSignedInteger.subset {t : Text} (h : IsSignedInteger t) : t ⊆ operandChars := by
  obtain h | ⟨p, hp, rfl⟩ := h
  · exact h.subset
  · exact List.append_subset.2 ⟨by decide, hp.subset⟩

theorem IsBase.subset {t : Text} (h : IsBase t) : t ⊆ operandChars := by
  obtain ⟨b, hb, rfl⟩ := h
  revert b
  decide

theorem IsAddrExpr.subset {t : Text} (h : IsAddrExpr t) : t ⊆ operandChars := by
  obtain h | h | ⟨b, n, hb, hn, rfl | rfl⟩ := h
  · exact h.subset
  · exact h.subset
  · exact List.append_subset.2 ⟨List.append_subset.2 ⟨hb.subset, by decide⟩, hn.subset⟩
  · exact List.append_subset.2 ⟨List.append_subset.2 ⟨hb.subset, by decide⟩, hn.subset⟩

theorem IsRegOrMem.subset {t : Text} (h : IsRegOrMem t) : t ⊆ operandChars := by
  obtain ⟨r, hr, rfl⟩ | ⟨a, ha, rfl⟩ := h
  · revert r
    decide
  · exact List.append_subset.2 ⟨List.append_subset.2 ⟨by decide, ha.subset⟩, by decide⟩

theorem IsRegOrMemOrImm.subset {t : Text} (h : IsRegOrMemOrImm t) : t ⊆ operandChars := by
  obtain h | h | ⟨v, hv, rfl | rfl⟩ := h
  · exact h.subset
  · exact h.subset
  · exact List.append_subset.2 ⟨by decide, hv.subset⟩
  · exact List.append_subset.2 ⟨by decide, hv.subset⟩

/-- A line is characters of the output and then a newline (R66, R67). -/
theorem IsLine.exists_body {t : Text} (h : IsLine t) : ∃ body, t = body ++ ['\n'] ∧ body ⊆ lineChars := by
  obtain ⟨dst, src, hdst, hsrc, rfl⟩ := h
  have hoperand : operandChars ⊆ lineChars := List.erase_subset
  have hmov : "mov ".toList ⊆ lineChars := by decide
  have hcomma : ", ".toList ⊆ lineChars := by decide
  refine ⟨_, rfl, ?_⟩
  have hdst := List.Subset.trans hdst.subset hoperand
  have hsrc := List.Subset.trans hsrc.subset hoperand
  exact List.append_subset.2 ⟨List.append_subset.2 ⟨List.append_subset.2 ⟨hmov, hdst⟩, hcomma⟩, hsrc⟩

/-- Settles O22, by the grammar. -/
theorem lineCharacters : Obligations.LineCharacters :=
  fun i => (linesFollowTheGrammar i).exists_body

/-- A line has one newline (R88). -/
theorem count_newline_instrLine (i : Instr) : (instrLine i).count '\n' = 1 := by
  obtain ⟨body, hline, hbody⟩ := lineCharacters i
  have hnone : body.count '\n' = 0 := List.count_eq_zero.2 fun hmem => absurd (hbody _ hmem) (by decide)
  rw [hline, List.count_append, hnone]
  rfl

/-- Settles O55: the encodings fill the bytes before the cursor, and each line has one newline. -/
theorem newlinesCountInstructions : Obligations.NewlinesCountInstructions := by
  rintro s ⟨is, -, hbytes, hout⟩
  refine ⟨is, hbytes, ?_, ?_⟩
  · have hlength (i : Instr) : i.length = (encode i).length := (encodedLength_statement i).1.symm
    rw [funext hlength, ← List.length_flatMap, ← hbytes, Memory.length_bytes]
  · have hone : List.count '\n' ∘ instrLine = fun _ => 1 := funext count_newline_instrLine
    rw [hout, List.count_append, List.count_flatMap, hone, List.map_const', List.sum_replicate_nat, Nat.mul_one]

end Sys2Proof.Machine

/-! # The length of a line (70_reset_and_hazards.md section 6) -/

namespace Sys2Proof.Machine

/-- A number of 16 bits, read as signed. -/
def Is16Bit (n : Int) : Prop := -32768 ≤ n ∧ n ≤ 32767

theorem is16Bit_signed16 (u : Word16) : Is16Bit (signed16 u) := by
  have := u.isLt
  unfold Is16Bit signed16
  split <;> omega

theorem is16Bit_sext16 (v : Byte) : Is16Bit (sext16 v) := by
  have := v.isLt
  unfold Is16Bit sext16
  split <;> omega

theorem is16Bit_immValue (imm : Imm) : Is16Bit (immValue imm) := by
  cases imm with
  | byte v => exact is16Bit_sext16 v
  | word u => exact is16Bit_signed16 u

theorem length_regName : ∀ (w : Width) (r : Field3), (regName r w).length = 2
  | .byte => by decide
  | .word => by decide

theorem length_baseText : ∀ rm : Field3, 2 ≤ (baseText rm).length ∧ (baseText rm).length ≤ 7 := by decide

theorem length_bracketed (t : Text) : (bracketed t).length = t.length + 2 := by
  simp [bracketed]

theorem length_qualifier (w : Width) : (qualifier w).length = 5 := by
  cases w <;> rfl

theorem length_dec_le_five {n : Int} (h : 0 ≤ n) (hlt : n < 100000) : (dec n).length ≤ 5 := by
  rw [dec_of_nonneg h]
  exact length_decNat_le (by decide) (by omega)

theorem length_dec {n : Int} (h : Is16Bit n) : 1 ≤ (dec n).length ∧ (dec n).length ≤ 6 := by
  obtain ⟨hlow, hhigh⟩ := h
  obtain hneg | hnonneg := lt_or_ge n 0
  · have := length_dec_le_five (n := -n) (by omega) (by omega)
    rw [dec_of_neg hneg, List.length_cons]
    omega
  · have := length_dec_le_five hnonneg (by omega)
    have := length_decNat_pos n.natAbs
    rw [← dec_of_nonneg hnonneg] at this
    omega

theorem length_addrText (a : Word16) : 3 ≤ (addrText a).length ∧ (addrText a).length ≤ 7 := by
  have ha := a.isLt
  have hpos := length_decNat_pos a.toNat
  have := length_decNat_le (n := a.toNat) (k := 5) (by decide) (by omega)
  rw [addrText, length_bracketed, dec_natCast]
  omega

theorem length_dispText {disp : Int} (h : Is16Bit disp) : (dispText disp).length ≤ 8 := by
  obtain ⟨hlow, hhigh⟩ := h
  obtain hneg | rfl | hpos := lt_trichotomy disp 0
  · have := length_dec_le_five (n := -disp) (by omega) (by omega)
    rw [dispText_of_neg hneg, List.length_append]
    exact Nat.add_le_add (Nat.le_refl 3) this
  · exact Nat.zero_le 8
  · have := length_dec_le_five hpos.le (by omega)
    rw [dispText_of_pos hpos, List.length_append]
    exact Nat.add_le_add (Nat.le_refl 3) this

theorem length_based (rm : Field3) {disp : Int} (h : Is16Bit disp) :
    4 ≤ (bracketed (baseText rm ++ dispText disp)).length ∧ (bracketed (baseText rm ++ dispText disp)).length ≤ 17 := by
  have := length_baseText rm
  have := length_dispText h
  rw [length_bracketed, List.length_append]
  omega

theorem length_rmText (w : Width) (rm : RegMem) : 2 ≤ (rmText w rm).length ∧ (rmText w rm).length ≤ 17 := by
  rw [← text_rmOperand]
  cases rm with
  | reg r => exact (length_regName w r).symm ▸ ⟨by decide, by decide⟩
  | direct a => exact (length_addrText a).imp (le_trans (by decide)) (le_trans · (by decide))
  | base rm => exact (length_based rm ⟨by decide, by decide⟩).imp_left (le_trans (by decide))
  | disp8 rm v => exact (length_based rm (is16Bit_sext16 v)).imp_left (le_trans (by decide))
  | disp16 rm u => exact (length_based rm (is16Bit_signed16 u)).imp_left (le_trans (by decide))

theorem length_lineText (dst src : Text) : (lineText dst src).length = dst.length + src.length + 7 := by
  rw [lineText_eq, List.length_append, List.length_append, List.length_append, List.length_append]
  have hmov : "mov ".toList.length = 4 := rfl
  have hcomma : ", ".toList.length = 2 := rfl
  rw [hmov, hcomma, List.length_singleton]
  omega

theorem length_instrLine (i : Instr) : 10 ≤ (instrLine i).length ∧ (instrLine i).length ≤ 35 := by
  cases i with
  | movRegMemReg d w reg rm =>
    have := length_regName w reg
    have := length_rmText w rm
    cases d with
    | regIsSource => rw [instrLine, movRegMemRegLine, length_lineText]; omega
    | regIsDest => rw [instrLine, movRegMemRegLine, length_lineText]; omega
  | movImmRegMem reg rm imm =>
    have := length_rmText imm.width rm
    have := length_qualifier imm.width
    have := length_dec (is16Bit_immValue imm)
    rw [instrLine, movImmRegMemLine, length_lineText, List.length_append]
    omega
  | movImmReg reg imm =>
    have := length_regName imm.width reg
    have := length_dec (is16Bit_immValue imm)
    rw [instrLine, movImmRegLine, length_lineText]
    omega
  | movMemAcc w a =>
    have := length_regName w 0b000#3
    have := length_addrText a
    rw [instrLine, movMemAccLine, length_lineText, accName]
    omega
  | movAccMem w a =>
    have := length_regName w 0b000#3
    have := length_addrText a
    rw [instrLine, movAccMemLine, length_lineText, accName]
    omega

/-- Settles O23: the bounds add up the operands' lengths; `mov al, 0` and `mov [bp + si - 32768], word -32768` meet
them. -/
theorem lineLengthBounds : Obligations.LineLengthBounds :=
  ⟨length_instrLine, ⟨.movImmReg 0b000#3 (.byte 0x00#8), rfl, by decide⟩,
    ⟨.movImmRegMem 0b000#3 (.disp16 0b010#3 0x8000#16) (.word 0x8000#16), rfl, by decide⟩⟩

end Sys2Proof.Machine

/-! # Which lines are the same (30_encoding.md section 6) -/

namespace Sys2Proof.Machine

/-! ## Redundant encodings -/

/-- Instructions with the same printed operands have the same line. -/
theorem instrLine_congr {i j : Instr} (h : instrOperands i = instrOperands j) : instrLine i = instrLine j := by
  rw [instrLine_eq, instrLine_eq, h]

/-- A one-byte displacement is the two-byte one of its sign extension (R65, R141). -/
theorem signed16_signExtend (v : Byte) : signed16 (v.signExtend 16) = sext16 v := by
  rw [signed16_eq_toInt, sext16_eq_toInt, BitVec.toInt_signExtend_of_le (by decide)]

/-- Variant 1 with operands that are printed alike has one line (R65). -/
theorem instrLine_movRegMemReg_congr (d : Dir) {w : Width} (reg : Field3) {rm rm' : RegMem}
    (h : rmOperand w rm = rmOperand w rm') :
    instrLine (.movRegMemReg d w reg rm) = instrLine (.movRegMemReg d w reg rm') := by
  cases d with
  | regIsSource => exact instrLine_congr (congrArg (·, Operand.reg w reg) h)
  | regIsDest => exact instrLine_congr (congrArg (Operand.reg w reg, ·) h)

/-- Settles O24: each pair of encodings has the same printed operands. -/
theorem redundantEncodings : Obligations.RedundantEncodings := by
  refine ⟨fun w r q => instrLine_congr rfl, fun d w r q => ⟨?_, ?_⟩, fun d w r q v => ?_, fun w a => ⟨?_, ?_⟩⟩
  · exact instrLine_movRegMemReg_congr d r rfl
  · exact instrLine_movRegMemReg_congr d r rfl
  · exact instrLine_movRegMemReg_congr d r (congrArg (Operand.based q) (signed16_signExtend v))
  · exact instrLine_congr rfl
  · exact instrLine_congr rfl

/-! ## The kind of an operand, from its text -/

/-- Which of the five forms of a printed operand this is. -/
def Operand.kind : Operand → Fin 5
  | .reg _ _ => 0
  | .direct _ => 1
  | .based _ _ => 2
  | .imm none _ => 3
  | .imm (some _) _ => 4

/-- The form that a text has: what the first character of an operand, the first one in brackets, and the length say. -/
def textKind (t : Text) : Fin 5 :=
  if t.headD ' ' = '[' then if (t.getD 1 ' ').isDigit then 1 else 2
  else if (t.headD ' ').isDigit ∨ t.headD ' ' = '-' then 3
  else if t.length = 2 then 0
  else 4

theorem textKind_regName : ∀ (w : Width) (r : Field3), textKind (regName r w) = 0
  | .byte => by decide
  | .word => by decide

theorem textKind_bracketed (c : Char) (cs : Text) :
    textKind (bracketed (c :: cs)) = if c.isDigit then 1 else 2 := rfl

/-- Every base expression begins with a character that is no digit (R131). -/
theorem headD_baseText : ∀ rm : Field3, ((baseText rm).headD '0').isDigit = false := by decide

theorem textKind_based (rm : Field3) (disp : Int) : textKind (bracketed (baseText rm ++ dispText disp)) = 2 := by
  have hhead := headD_baseText rm
  cases hbase : baseText rm with
  | nil =>
    rw [hbase] at hhead
    exact absurd hhead (by decide)
  | cons c cs =>
    rw [hbase, List.headD_cons] at hhead
    rw [List.cons_append, textKind_bracketed, hhead]
    rfl

theorem textKind_direct (a : Word16) : textKind (addrText a) = 1 := by
  obtain ⟨c, ds, hds, hdigit⟩ := exists_digit_cons_decNat a.toNat
  rw [addrText, dec_natCast, hds, textKind_bracketed, if_pos hdigit]

theorem textKind_dec (n : Int) : textKind (dec n) = 3 := by
  obtain hneg | hnonneg := lt_or_ge n 0
  · rw [dec_of_neg hneg]
    rfl
  · obtain ⟨c, ds, hds, hdigit⟩ := exists_digit_cons_decNat n.natAbs
    have hbracket : ¬c = '[' := by
      rintro rfl
      exact absurd hdigit (by decide)
    rw [dec_of_nonneg hnonneg, hds, textKind, List.headD_cons, if_neg hbracket, if_pos (.inl hdigit)]

/-- A text that begins with a letter and is not two characters long is a qualified immediate's. -/
theorem textKind_of_letter {c : Char} {cs : Text} (hbracket : c ≠ '[') (hnumber : ¬(c.isDigit ∨ c = '-'))
    (hlength : (c :: cs).length ≠ 2) : textKind (c :: cs) = 4 := by
  rw [textKind, List.headD_cons, if_neg hbracket, if_neg hnumber, if_neg hlength]

theorem textKind_qualified (w : Width) (t : Text) : textKind (qualifier w ++ t) = 4 := by
  have hlength : (qualifier w ++ t).length ≠ 2 := by
    rw [List.length_append, length_qualifier]
    omega
  cases w with
  | byte => exact textKind_of_letter (c := 'b') (cs := "yte ".toList ++ t) (by decide) (by decide) hlength
  | word => exact textKind_of_letter (c := 'w') (cs := "ord ".toList ++ t) (by decide) (by decide) hlength

/-- The text of an operand shows its form. -/
theorem textKind_text (o : Operand) : textKind o.text = o.kind := by
  cases o with
  | reg w r => exact textKind_regName w r
  | direct a => exact textKind_direct a
  | based rm disp => exact textKind_based rm disp
  | imm qual v =>
    cases qual with
    | none => exact textKind_dec v
    | some w => exact textKind_qualified w _

/-! ## Texts of one form -/

theorem regName_injective : ∀ (w w' : Width) (r r' : Field3), regName r w = regName r' w' → w = w' ∧ r = r'
  | .byte, .byte => by decide
  | .byte, .word => by decide
  | .word, .byte => by decide
  | .word, .word => by decide

theorem bracketed_injective {t t' : Text} (h : bracketed t = bracketed t') : t = t' :=
  List.append_cancel_right (List.cons.inj h).2

theorem addrText_injective {a a' : Word16} (h : addrText a = addrText a') : a = a' :=
  BitVec.eq_of_toNat_eq (decNat_injective (bracketed_injective h))

/-- A qualifier and a number are read back from their text: both qualifiers are five characters long. -/
theorem qualified_injective {w w' : Width} {v v' : Int} (h : qualifier w ++ dec v = qualifier w' ++ dec v') :
    w = w' ∧ v = v' := by
  obtain ⟨hqual, hdec⟩ := List.append_inj h ((length_qualifier w).trans (length_qualifier w').symm)
  have hinj : ∀ {w w' : Width}, qualifier w = qualifier w' → w = w'
    | .byte, .byte => fun _ => rfl
    | .byte, .word => by decide
    | .word, .byte => by decide
    | .word, .word => fun _ => rfl
  exact ⟨hinj hqual, dec_injective hdec⟩

/-! ## A base expression and its displacement -/

/-- The sign of a displacement as it is printed (R133). -/
def signText : SignType → Text
  | .zero => []
  | .neg => " - ".toList
  | .pos => " + ".toList

/-- The digits of a displacement: none for 0 (R133). -/
def dispDigits (disp : Int) : Text := if disp = 0 then [] else decNat disp.natAbs

theorem dispText_eq (disp : Int) : dispText disp = signText (SignType.sign disp) ++ dispDigits disp := by
  obtain hneg | rfl | hpos := lt_trichotomy disp 0
  · rw [dispText_of_neg hneg, sign_neg hneg, dispDigits, if_neg hneg.ne, dec_of_nonneg (by omega), Int.natAbs_neg]
    rfl
  · rfl
  · rw [dispText_of_pos hpos, sign_pos hpos, dispDigits, if_neg hpos.ne', dec_of_nonneg hpos.le]
    rfl

theorem isDigit_of_mem_dispDigits {disp : Int} {c : Char} (h : c ∈ dispDigits disp) : c.isDigit = true := by
  unfold dispDigits at h
  split at h
  · cases h
  · exact isDigit_of_mem_decNat h

/-- The sign and the digits are the displacement. -/
theorem eq_of_sign_of_dispDigits {d d' : Int} (hsign : SignType.sign d = SignType.sign d')
    (hdigits : dispDigits d = dispDigits d') : d = d' := by
  by_cases hd : d = 0
  · have hzero : SignType.sign d' = 0 := by rw [← hsign, hd, sign_zero]
    rw [hd, sign_eq_zero_iff.1 hzero]
  · have hd' : d' ≠ 0 := by
      rintro rfl
      rw [sign_zero] at hsign
      exact hd (sign_eq_zero_iff.1 hsign)
    rw [dispDigits, dispDigits, if_neg hd, if_neg hd'] at hdigits
    rw [← sign_mul_abs d, ← sign_mul_abs d', hsign, Int.abs_eq_natAbs, Int.abs_eq_natAbs, decNat_injective hdigits]

/-- Where a text without digits and a text of digits meet can be seen. -/
theorem append_inj_of_isDigit {t t' ds ds' : Text} (ht : ∀ c ∈ t, ¬c.isDigit = true) (ht' : ∀ c ∈ t', ¬c.isDigit = true)
    (hds : ∀ c ∈ ds, c.isDigit = true) (hds' : ∀ c ∈ ds', c.isDigit = true) (h : t ++ ds = t' ++ ds') :
    t = t' ∧ ds = ds' := by
  have hfilter {t ds : Text} (ht : ∀ c ∈ t, ¬c.isDigit = true) (hds : ∀ c ∈ ds, c.isDigit = true) :
      (t ++ ds).filter Char.isDigit = ds := by
    rw [List.filter_append, List.filter_eq_self.2 hds, List.filter_eq_nil_iff.2 ht, List.nil_append]
  obtain rfl : ds = ds' := by rw [← hfilter ht hds, h, hfilter ht' hds']
  exact ⟨List.append_cancel_right h, rfl⟩

/-- The part of a memory operand before its digits. -/
def basedHead (rm : Field3) (s : SignType) : Text := baseText rm ++ signText s

theorem any_isDigit_baseText : ∀ rm : Field3, (baseText rm).any Char.isDigit = false := by decide

theorem any_isDigit_signText : ∀ s : SignType, (signText s).any Char.isDigit = false := by decide

theorem not_isDigit_of_mem_basedHead (rm : Field3) (s : SignType) : ∀ c ∈ basedHead rm s, ¬c.isDigit = true := by
  rw [← List.any_eq_false, basedHead, List.any_append, any_isDigit_baseText, any_isDigit_signText]
  rfl

theorem basedHead_injective : ∀ {rm rm' : Field3} {s s' : SignType}, basedHead rm s = basedHead rm' s' →
    rm = rm' ∧ s = s' := by
  decide +kernel

theorem based_injective {rm rm' : Field3} {d d' : Int} (h : baseText rm ++ dispText d = baseText rm' ++ dispText d') :
    rm = rm' ∧ d = d' := by
  rw [dispText_eq, dispText_eq, ← List.append_assoc, ← List.append_assoc] at h
  obtain ⟨hhead, hdigits⟩ := append_inj_of_isDigit (not_isDigit_of_mem_basedHead rm _)
    (not_isDigit_of_mem_basedHead rm' _) (fun _ => isDigit_of_mem_dispDigits) (fun _ => isDigit_of_mem_dispDigits) h
  obtain ⟨hrm, hsign⟩ := basedHead_injective hhead
  exact ⟨hrm, eq_of_sign_of_dispDigits hsign hdigits⟩

/-! ## Operands and lines are read back -/

/-- Operands with the same text are the same operand: their forms agree, and within a form the text is unambiguous. -/
theorem Operand.text_injective {o o' : Operand} (h : o.text = o'.text) : o = o' := by
  have hkind : o.kind = o'.kind := by rw [← textKind_text, h, textKind_text]
  match o, o', hkind with
  | .reg w r, .reg w' r', _ =>
    obtain ⟨rfl, rfl⟩ := regName_injective w w' r r' h
    rfl
  | .direct a, .direct a', _ => rw [addrText_injective h]
  | .based rm d, .based rm' d', _ =>
    obtain ⟨rfl, rfl⟩ := based_injective (bracketed_injective h)
    rfl
  | .imm none v, .imm none v', _ => rw [dec_injective h]
  | .imm (some w) v, .imm (some w') v', _ =>
    obtain ⟨rfl, rfl⟩ := qualified_injective h
    rfl

theorem comma_notMem_text (o : Operand) : ',' ∉ o.text := fun h =>
  absurd ((isRegOrMemOrImm_text o).subset h) (by decide)

/-- The comma of a line shows where its operands meet (R84). -/
theorem lineText_injective {dst dst' src src' : Text} (hdst : ',' ∉ dst) (hsrc : ',' ∉ src)
    (h : lineText dst src = lineText dst' src') : dst = dst' ∧ src = src' := by
  have hcomma : ", ".toList = [',', ' '] := rfl
  rw [lineText_eq, lineText_eq] at h
  have hbody := List.append_cancel_right h
  rw [List.append_assoc, List.append_assoc, List.append_assoc, List.append_assoc] at hbody
  have hoperands := List.append_cancel_left hbody
  rw [hcomma, List.cons_append, List.cons_append] at hoperands
  have htail : ',' ∉ [' '] ++ src := by simpa using hsrc
  obtain ⟨hd, -, hs⟩ := (List.append_cons_inj_of_notMem hdst htail).1 hoperands
  exact ⟨hd, List.append_cancel_left hs⟩

/-- Settles O25: a line is read back to its two operands' texts, and each text to its operand. -/
theorem sameLineIffSameOperands : Obligations.SameLineIffSameOperands := by
  refine fun i j => ⟨fun h => ?_, instrLine_congr⟩
  rw [instrLine_eq, instrLine_eq] at h
  obtain ⟨hdst, hsrc⟩ := lineText_injective (comma_notMem_text _) (comma_notMem_text _) h
  exact Prod.ext (Operand.text_injective hdst) (Operand.text_injective hsrc)

end Sys2Proof.Machine

/-! # The pseudocode and the decoder (20_memory.md section 2, 40_dispatch_and_step.md section 1) -/

namespace Sys2Proof.Machine

/-! ## Readers that move the cursor, and readers of a list of bytes -/

/-- The pseudocode `p` does on the image what the reader `r` does on the bytes ahead, under one `IMM_REG_CHECK`: it moves
the cursor past the bytes that `r` takes and answers `f` of what `r` answers, or raises the error with which `r` fails. -/
structure Simulates {α β : Type} (check : Bool) (p : Pseudo α) (r : List Byte → Except DecodeError (β × List Byte))
    (f : β → α) : Prop where
  ok : ∀ {s x rest}, s.immRegCheck = check → s.cur ≤ s.len → r s.stream = .ok (x, rest) →
    ∃ n, s.cur + n ≤ s.len ∧ (s.advance n).stream = rest ∧ p s = .ok (f x, s.advance n)
  error : ∀ {s e}, s.immRegCheck = check → s.cur ≤ s.len → r s.stream = .error e → p s = .error e

theorem pseudo_bind_of_ok {α γ : Type} {p : Pseudo α} {s t : State} {a : α} (h : p s = .ok (a, t)) (k : α → Pseudo γ) :
    (p >>= k) s = k a t := by
  simp only [bind, StateT.bind, h, Except.bind]

theorem pseudo_bind_of_error {α γ : Type} {p : Pseudo α} {s : State} {e : DecodeError} (h : p s = .error e)
    (k : α → Pseudo γ) : (p >>= k) s = .error e := by
  simp only [bind, StateT.bind, h, Except.bind]

theorem State.advance_advance (s : State) (n k : Nat) : (s.advance n).advance k = s.advance (n + k) := by
  simp [advance, Nat.add_assoc]

section Combinators
variable {α β γ δ : Type} {check : Bool}

/-- Two readers in a row, the second after an answer that the first can give. -/
theorem Simulates.bind_answered {p : Pseudo α} {r : List Byte → Except DecodeError (β × List Byte)} {f : β → α}
    {k : α → Pseudo γ} {k' : β × List Byte → Except DecodeError (δ × List Byte)} {g : δ → γ}
    (hp : Simulates check p r f)
    (hk : ∀ {bs x rest}, r bs = .ok (x, rest) → Simulates check (k (f x)) (fun bs => k' (x, bs)) g) :
    Simulates check (p >>= k) (fun bs => r bs >>= k') g where
  ok := by
    intro s y rest hcheck hle h
    obtain ⟨⟨x, mid⟩, hr, hk'⟩ := bind_eq_ok.1 h
    obtain ⟨n, hn, rfl, hps⟩ := hp.ok hcheck hle hr
    obtain ⟨m, hm, hrest, hks⟩ := (hk hr).ok (s := s.advance n) hcheck hn hk'
    rw [State.advance_advance] at hrest hks
    exact ⟨n + m, by rw [← Nat.add_assoc]; exact hm, hrest, (pseudo_bind_of_ok hps k).trans hks⟩
  error := by
    intro s e hcheck hle h
    obtain hr | ⟨⟨x, mid⟩, hr, hk'⟩ := bind_eq_error.1 h
    · exact pseudo_bind_of_error (hp.error hcheck hle hr) k
    · obtain ⟨n, hn, rfl, hps⟩ := hp.ok hcheck hle hr
      exact (pseudo_bind_of_ok hps k).trans ((hk hr).error (s := s.advance n) hcheck hn hk')

/-- Two readers in a row. -/
theorem Simulates.bind {p : Pseudo α} {r : List Byte → Except DecodeError (β × List Byte)} {f : β → α}
    {k : α → Pseudo γ} {k' : β × List Byte → Except DecodeError (δ × List Byte)} {g : δ → γ}
    (hp : Simulates check p r f) (hk : ∀ x, Simulates check (k (f x)) (fun bs => k' (x, bs)) g) :
    Simulates check (p >>= k) (fun bs => r bs >>= k') g :=
  hp.bind_answered fun {_ x _} _ => hk x

/-- An answer that reads nothing. -/
theorem Simulates.answer {f : β → α} {x : β} {a : α} (h : a = f x) :
    Simulates check (pure a) (fun bs => pure (x, bs)) f where
  ok := by
    rintro s _ _ - hle ⟨⟩
    exact ⟨0, hle, rfl, by rw [h]; rfl⟩
  error := by
    rintro s _ - - ⟨⟩

/-- An error that reads nothing. -/
theorem Simulates.raise {f : β → α} (e : DecodeError) : Simulates check (throw e) (fun _ => .error e) f where
  ok := by
    rintro s _ _ - - ⟨⟩
  error := by
    rintro s _ - - ⟨⟩
    rfl

/-- A test that both readers make. -/
theorem Simulates.branch {P Q : Prop} [Decidable P] [Decidable Q] {p p' : Pseudo α}
    {r r' : List Byte → Except DecodeError (β × List Byte)} {f : β → α} (hPQ : P ↔ Q)
    (hp : Simulates check p r f) (hp' : Simulates check p' r' f) :
    Simulates check (if P then p else p') (fun bs => if Q then r bs else r' bs) f := by
  by_cases hQ : Q
  · simpa only [hPQ, hQ, if_true] using hp
  · simpa only [hPQ, hQ, if_false] using hp'

/-- Reading the state, where only `IMM_REG_CHECK` is looked at. -/
theorem Simulates.inspect {k : State → Pseudo α} {p : Pseudo α} {r : List Byte → Except DecodeError (β × List Byte)}
    {f : β → α} (hk : ∀ s : State, s.immRegCheck = check → k s = p) (hp : Simulates check p r f) :
    Simulates check (get >>= k) r f where
  ok := by
    intro s x rest hcheck hle h
    rw [pseudo_bind_of_ok (a := s) (t := s) rfl, hk s hcheck]
    exact hp.ok hcheck hle h
  error := by
    intro s e hcheck hle h
    rw [pseudo_bind_of_ok (a := s) (t := s) rfl, hk s hcheck]
    exact hp.error hcheck hle h

end Combinators

/-! ## Fetches (R31, R32, R57) -/

section Readers
variable {check : Bool}

theorem simulates_fetch8P : Simulates check fetch8P fetch8 BitVec.toNat where
  ok := by
    intro s b rest _ hle h
    rw [fetch8_ok] at h
    have hlt : s.cur < s.len := by
      by_contra hge
      rw [State.stream_nil (not_lt.1 hge)] at h
      cases h
    rw [State.stream_cons hlt] at h
    obtain ⟨rfl, rfl⟩ := List.cons.inj h
    exact ⟨1, hlt, rfl, if_neg hlt.ne⟩
  error := by
    intro s e _ hle h
    obtain ⟨rfl, hempty⟩ := fetch8_error.1 h
    rw [State.length_stream] at hempty
    exact if_pos (by omega)

theorem simulates_fetch16P : Simulates check fetch16P fetch16 BitVec.toNat :=
  simulates_fetch8P.bind fun lo => simulates_fetch8P.bind fun hi => .answer (pair_toNat lo hi).symm

theorem simulates_immP (w : Width) : Simulates check (immP w.bit.toNat) (decodeImm w) immValue := by
  cases w with
  | byte => exact simulates_fetch8P.bind fun v => .answer rfl
  | word => exact simulates_fetch16P.bind fun u => .answer rfl

/-! ## Fields (R53, R54) -/

theorem bitsP_regField : ∀ m : Byte, bitsP m.toNat 3 3 = (regField m).toNat := by decide

theorem bitsP_modField : ∀ m : Byte, bitsP m.toNat 6 2 = (modField m).toNat := by decide

theorem bitsP_rmField : ∀ m : Byte, bitsP m.toNat 0 3 = (rmField m).toNat := by decide

theorem bitsP_width : ∀ b : Byte, bitsP b.toNat 0 1 = (Width.ofBit (b.getLsbD 0)).bit.toNat := by decide

theorem bitsP_widthShort : ∀ b : Byte, bitsP b.toNat 3 1 = (Width.ofBit (b.getLsbD 3)).bit.toNat := by decide

theorem bitsP_dir : ∀ b : Byte, bitsP b.toNat 1 1 = (Dir.ofBit (b.getLsbD 1)).bit.toNat := by decide

theorem regNameP_toNat (reg : Field3) (w : Width) : regNameP reg.toNat w.bit.toNat = regName reg w := by
  cases w <;> rfl

theorem toNat_eq_zero : ∀ reg : Field3, reg.toNat = 0 ↔ reg = 0b000#3 := by decide

/-- The qualifier by the `w` bit (R110). -/
theorem ite_toNat_bit_eq_qualifier (w : Width) :
    (if w.bit.toNat = 0 then "byte ".toList else "word ".toList) = qualifier w := by
  cases w <;> rfl

/-! ## Operands (R100, R132) -/

theorem bitVec_two_cases : ∀ mod : BitVec 2, mod = 0b00#2 ∨ mod = 0b01#2 ∨ mod = 0b10#2 ∨ mod = 0b11#2 := by decide

theorem toNat_eq_six : ∀ rm : Field3, rm.toNat = 6 ↔ rm = 0b110#3 := by decide

/-- `EA` with the two forms of `mod = 00` side by side. -/
theorem eaP_mod_zero (rm : Nat) :
    eaP 0 rm = if rm = 6 then fetch16P >>= fun a => pure ("[".toList ++ dec a ++ "]".toList)
      else pure ("[".toList ++ baseP rm ++ "]".toList) := by
  unfold eaP
  by_cases h : rm = 6 <;> simp [h]

theorem decodeRegMem_mod_zero (rm : Field3) :
    decodeRegMem 0b00#2 rm = fun bs => if rm = 0b110#3 then fetch16 bs >>= fun p => pure (.direct p.1, p.2)
      else pure (.base rm, bs) := rfl

/-- The operand of a mode byte, one value of `mod` at a time. -/
theorem simulates_rmP (mod : BitVec 2) (rm : Field3) (w : Width) :
    Simulates check (rmP mod.toNat rm.toNat w.bit.toNat) (decodeRegMem mod rm) (rmText w) := by
  obtain rfl | rfl | rfl | rfl := bitVec_two_cases mod
  · rw [decodeRegMem_mod_zero]
    change Simulates check (eaP 0 rm.toNat) _ _
    rw [eaP_mod_zero]
    exact .branch (toNat_eq_six rm) (simulates_fetch16P.bind fun a => .answer (x := RegMem.direct a) rfl) (.answer rfl)
  · exact simulates_fetch8P.bind fun v => .answer rfl
  · exact simulates_fetch16P.bind fun u => .answer rfl
  · exact .answer (regNameP_toNat rm w)

/-! ## The five variants after their first byte -/

theorem simulates_movRmRegP (b : Byte) : Simulates check (movRmRegP b.toNat) (decodeMovRegMemReg b) instrLine := by
  unfold movRmRegP
  rw [bitsP_dir, bitsP_width]
  refine simulates_fetch8P.bind fun m => ?_
  rw [bitsP_regField, bitsP_modField, bitsP_rmField, regNameP_toNat]
  refine (simulates_rmP _ _ _).bind fun x => ?_
  cases b.getLsbD 1 with
  | false => exact .answer rfl
  | true => exact .answer rfl

theorem simulates_movImmRmP (b : Byte) :
    Simulates check (movImmRmP b.toNat) (decodeMovImmRegMem check b) instrLine := by
  unfold movImmRmP
  rw [bitsP_width]
  refine simulates_fetch8P.bind fun m => .inspect (fun s hs => by rw [hs]) ?_
  rw [bitsP_regField, bitsP_modField, bitsP_rmField]
  have htest : check = true ∧ (regField m).toNat ≠ 0 ↔ regFieldRejected check (regField m) = true := by
    rw [regFieldRejected_iff, ne_eq, toNat_eq_zero]
  refine .branch htest (.raise _) ((simulates_rmP _ _ _).bind fun x => (simulates_immP _).bind_answered ?_)
  intro bs imm rest himm
  obtain ⟨-, hw⟩ := decodeImm_ok.1 himm
  refine .answer ?_
  rw [← hw, ite_toNat_bit_eq_qualifier]
  rfl

theorem simulates_movImmRegP (b : Byte) : Simulates check (movImmRegP b.toNat) (decodeMovImmReg b) instrLine := by
  unfold movImmRegP
  rw [bitsP_widthShort, bitsP_rmField, regNameP_toNat]
  refine (simulates_immP _).bind_answered ?_
  intro bs imm rest himm
  obtain ⟨-, hw⟩ := decodeImm_ok.1 himm
  refine .answer ?_
  rw [← hw]
  rfl

theorem simulates_movMemAccP (b : Byte) : Simulates check (movMemAccP b.toNat) (decodeMovMemAcc b) instrLine := by
  unfold movMemAccP
  rw [bitsP_width]
  exact simulates_fetch16P.bind fun a => .answer (congrArg (lineText · _) (regNameP_toNat 0b000#3 _))

theorem simulates_movAccMemP (b : Byte) : Simulates check (movAccMemP b.toNat) (decodeMovAccMem b) instrLine := by
  unfold movAccMemP
  rw [bitsP_width]
  exact simulates_fetch16P.bind fun a => .answer (congrArg (lineText _) (regNameP_toNat 0b000#3 _))

/-! ## The dispatch on the first byte (R81) -/

/-- A test of a first byte by division is the test by shift (R52). -/
theorem div_eq_iff_ushiftRight (b : Byte) (k : Nat) {p : Nat} (hp : p < 256) :
    b.toNat / 2 ^ k = p ↔ b >>> k = BitVec.ofNat 8 p := by
  rw [BitVec.toNat_eq, BitVec.toNat_ushiftRight, Nat.shiftRight_eq_div_pow, BitVec.toNat_ofNat, Nat.mod_eq_of_lt hp]

/-- The decoder after its first byte, by the tests of R81. -/
theorem decode_cons (check : Bool) (b : Byte) (bs : List Byte) :
    decode check (b :: bs) =
      if b >>> 1 = 0b1100011#8 then decodeMovImmRegMem check b bs
      else if b >>> 1 = 0b1010000#8 then decodeMovMemAcc b bs
      else if b >>> 1 = 0b1010001#8 then decodeMovAccMem b bs
      else if b >>> 2 = 0b100010#8 then decodeMovRegMemReg b bs
      else if b >>> 4 = 0b1011#8 then decodeMovImmReg b bs
      else .error .unknownOpcode := by
  have hv := variantByPrefixTests b
  split_ifs at hv ⊢
  · exact decode_immRm hv check bs
  · exact decode_memAcc hv check bs
  · exact decode_accMem hv check bs
  · exact decode_rmReg hv check bs
  · exact decode_immReg hv check bs
  · exact decode_unknown hv check bs

/-- The decoder reads a first byte and goes on with it; with no byte at all it fails as the fetch does (R31). -/
theorem decode_eq_fetch8_bind (check : Bool) (bs : List Byte) :
    decode check bs = fetch8 bs >>= fun p => decode check (p.1 :: p.2) := by
  cases bs <;> rfl

/-- The pseudocode reads an instruction as the decoder does, and gives its line (R80, R81). -/
theorem simulates_instructionP : Simulates check instructionP (decode check) instrLine := by
  rw [funext (decode_eq_fetch8_bind check)]
  refine simulates_fetch8P.bind fun b => ?_
  rw [funext (decode_cons check b)]
  exact .branch (div_eq_iff_ushiftRight b 1 (by decide)) (simulates_movImmRmP b) <|
    .branch (div_eq_iff_ushiftRight b 1 (by decide)) (simulates_movMemAccP b) <|
    .branch (div_eq_iff_ushiftRight b 1 (by decide)) (simulates_movAccMemP b) <|
    .branch (div_eq_iff_ushiftRight b 2 (by decide)) (simulates_movRmRegP b) <|
    .branch (div_eq_iff_ushiftRight b 4 (by decide)) (simulates_movImmRegP b) (.raise _)

end Readers

/-! ## The step -/

theorem pseudoStep_at_end {s : State} (hend : s.cur = s.len) : pseudoStep s = s.finish :=
  if_pos hend

theorem pseudoStep_of_ok {s t : State} {line : Text} (hlt : s.cur < s.len) (h : instructionP s = .ok (line, t)) :
    pseudoStep s = t.emit line := by
  simp only [pseudoStep, hlt.ne, if_false, h]
  rfl

theorem pseudoStep_of_error {s : State} {e : DecodeError} (hlt : s.cur < s.len) (h : instructionP s = .error e) :
    pseudoStep s = s.takeFault e s.cur := by
  simp only [pseudoStep, hlt.ne, if_false, h]
  rfl

/-- Settles O50: at the end both end the call; elsewhere the pseudocode reads what the decoder reads, so both commit the
same line over the same bytes, or take the same fault. -/
theorem stepIsThePseudocode : Obligations.StepIsThePseudocode := by
  intro s hrun hle
  obtain hend | hlt := hle.eq_or_lt
  · rw [step_at_end hrun hend, pseudoStep_at_end hend]
  · cases hd : s.decodeAtCursor with
    | error e => rw [step_of_decode_error hrun hlt hd, pseudoStep_of_error hlt (simulates_instructionP.error rfl hle hd)]
    | ok p =>
      obtain ⟨i, rest⟩ := p
      obtain ⟨hholds, rfl⟩ := State.holdsAtCursor_of_decode hd
      obtain ⟨n, hn, hrest, hline⟩ := simulates_instructionP.ok rfl hle hd
      have hlength := congrArg List.length hrest
      rw [State.length_stream, State.length_stream] at hlength
      have hinside := hholds.inside
      obtain rfl : n = i.length := by
        simp only [advance_len, advance_cur] at hlength
        omega
      rw [step_of_holds hrun hholds, pseudoStep_of_ok hlt hline]
      rfl

end Sys2Proof.Machine
